-- ==== Sys2Proof/Word.lean ====
section
/-! DEFINITION. The fixed-width words of the CORE (00_scope.md R9, R11). Bit 0 is the least significant bit of every one. -/

namespace Sys2Proof

/-- `WORD_W` = `IDX_W` = 32: a BRI data word, or one index operand (R9, R13: a plain vector, signedness only in how it is written). -/
abbrev Word := BitVec 32

/-- `DBL_W` = 64: the bit pattern of a double (20_memory.md R56). -/
abbrev DWord := BitVec 64

/-- `CW_W` = 129: a command word (30_encoding.md R70). -/
abbrev CmdWord := BitVec 129

/-- `RW_W` = 514: a response word (30_encoding.md R76). -/
abbrev RspWord := BitVec 514

/-- The DATA field of a response word (30_encoding.md R76). -/
abbrev RspData := BitVec 512

/-- `CHAR_W` = 8: one character code, and one byte on a bus (R9, 20_memory.md R58). -/
abbrev Byte := BitVec 8

/-- Text of the assembler's notation (30_encoding.md R82 to R87). -/
abbrev Text := List Char

end Sys2Proof
end

