-- ==== Sys2Proof/Syntax.lean ====
section
/-! DEFINITION. The two commands of the CORE (00_scope.md R3, 30_encoding.md R73), one constructor per row of the opcode table. -/

namespace Sys2Proof

/-- A decoded command. Its operands are whole fields, not scaled, extended or reduced (30_encoding.md R75). -/
inductive Instr where
  /-- `INSERT src, ins, right, left` (40_insert.md R100): BRI's bit-range insertion. -/
  | insert (src ins ridx lidx : Word)
  /-- `TOBIN val` (41_tobin.md R120): DBD's double-to-binary-string conversion. -/
  | tobin (val : DWord)
deriving DecidableEq, Repr

end Sys2Proof
end

