-- ==== Sys2Proof/WellFormed.lean ====
section
/-! DEFINITION. Which instructions are well formed. The widths of the fields are in their types, and the CORE has no reserved
or illegal encoding (30_encoding.md R74): an INSERT with an index above 31 is a legal command whose response is an error
(40_insert.md R112), not an ill-formed instruction. The one check left is that a number is a command word at all. -/

namespace Sys2Proof

/-- Every instruction is well formed, whatever its operands (30_encoding.md R74). -/
def Instr.wellFormed : Instr → Bool
  | .insert _ _ _ _ => true
  | .tobin _ => true

/-- A number is a command word when it has no bit above bit 128 (30_encoding.md R70, R81). -/
def commandWordFits (w : Nat) : Bool := decide (w < 2 ^ 129)

end Sys2Proof
end

