-- ==== Sys2Proof/Decode.lean ====
section
/-! DEFINITION. Decoding a command word, and encoding a command (30_encoding.md R70 to R75, R84). -/

namespace Sys2Proof

/-- `OP = CW[128]` (R70): whether it is 1. -/
def opcodeBit (cw : CmdWord) : Bool := decide (cw.extractLsb' 128 1 = 1#1)

/-- One 32-bit operand slot of format `C-INS` (R71): slot 0 is SRC, 1 INS, 2 RIDX, 3 LIDX. -/
def insertSlot (cw : CmdWord) (slot : Nat) : Word := cw.extractLsb' (32 * slot) 32

/-- `VAL = CW[63:0]` of format `C-BIN`; `CW[127:64]` is ignored and never checked (R72). -/
def tobinValue (cw : CmdWord) : DWord := cw.extractLsb' 0 64

/-- The decoder: total, because each of the `2^129` command words is exactly one command (R73, R74). -/
def decode (cw : CmdWord) : Instr :=
  if opcodeBit cw then .tobin (tobinValue cw)
  else .insert (insertSlot cw 0) (insertSlot cw 1) (insertSlot cw 2) (insertSlot cw 3)

/-- The command word of a command, as R84 writes it; the ignored bits of a TOBIN are written as zeros. -/
def encode : Instr → CmdWord
  | .insert src ins ridx lidx => 0#1 ++ lidx ++ ridx ++ ins ++ src
  | .tobin val => 1#1 ++ 0#64 ++ val

/-- Why a number is not read as a command word. -/
inductive DecodeReject where
  /-- A bit above bit 128 is set: a command word is one whole 129-bit value (R81, 20_memory.md R52). -/
  | widerThanCommandWord
deriving DecidableEq, Repr

/-- The command word whose bits are the low `nbits` bits of `w` and whose other bits are 0. -/
def tableCommandWord (nbits w : Nat) : Except DecodeReject CmdWord :=
  if commandWordFits (w % 2 ^ nbits) then .ok (BitVec.ofNat 129 (w % 2 ^ nbits)) else .error .widerThanCommandWord

/-- What the decoder reads from a number of `nbits` bits, numbered as the opcode table numbers them. -/
def decodeTableWord (nbits w : Nat) : Option Instr :=
  match tableCommandWord nbits w with
  | .ok cw => some (decode cw)
  | .error _ => none

end Sys2Proof
end

