-- ==== Sys2Proof/Config.lean ====
section
/-! DEFINITION. What an integrator fixes (00_scope.md R9, 10_state.md R41) and the values the spec leaves free.

The two `OPEN` parameters are arguments wherever they matter: `PIPELINE_STAGES` of `Machine.State.resetWith` (and, for any
state, the number of its pipeline slots), `BUS_BYTE_ORDER` of the functions of `Machine/Bus.lean`. -/

namespace Sys2Proof

/-- `BUS_BYTE_ORDER`, an `OPEN` parameter (20_memory.md R58). -/
inductive ByteOrder where
  | little
  | big
deriving DecidableEq, Repr

/-- The default of the `OPEN` parameter `PIPELINE_STAGES` (R9): the zero-latency form. -/
def Config.pipelineStagesDefault : Nat := 0

/-- `CHAR0`, the code of the character `'0'` (R9, R15). -/
def Config.char0 : Byte := 0x30#8

/-- `CHAR1`, the code of the character `'1'` (R9, R15). -/
def Config.char1 : Byte := 0x31#8

/-- FREE VALUE (10_state.md R43, 70_reset_and_hazards.md R160; log entry 2): the payload of a slot that nothing defined, at a
given tick: position `k ≥ 1` for `S[k].w` after a reset, position 0 for `S[1].w` when the host drove no defined word. -/
opaque Config.freePayload : (tick position : Nat) → RspWord

/-- FREE VALUE (10_state.md R42; log entry 3): `rsp_word` in a cycle where `rsp_valid = 0`. -/
opaque Config.freeRspWord : (tick : Nat) → RspWord

/-- FREE VALUE (70_reset_and_hazards.md R165, 93_implementation_defined.md I9; log entry 4): what a host gets that uses a
response before it is valid, at a given tick, as the operand in a given position. -/
opaque Config.earlyOperand : (tick position : Nat) → DWord

/-- FREE VALUE (20_memory.md R58; log entry 5): the 7 bits of the last byte of a command word on a bus that the word does not reach. -/
opaque Config.cmdPad : BitVec 7

/-- FREE VALUE (20_memory.md R58; log entry 5): the 6 bits of the last byte of a response word on a bus that the word does not reach. -/
opaque Config.rspPad : BitVec 6

end Sys2Proof
end

