-- ==== Sys2Proof/Machine/Flags.lean ====
section
/-! DEFINITION. The CORE has no flags (10_state.md R32): the outcome of a command goes into the STATUS field of its response.
This file holds the status codes and the validation that chooses among them (30_encoding.md R77, 40_insert.md R102). -/

namespace Sys2Proof.Machine

/-- The four outcomes of a command (30_encoding.md R77, 60_exceptions.md R141). -/
inductive Status where
  /-- `OK`: the command completed and DATA holds its result. -/
  | ok
  /-- `E_ORDER`: the invalid-range error, `RIDX >u LIDX`. -/
  | eOrder
  /-- `E_RIGHT_OOR`: the out-of-range error on `rightIndex`, `RIDX >u 31`. -/
  | eRightOor
  /-- `E_LEFT_OOR`: the out-of-range error on `leftIndex`, `LIDX >u 31`. -/
  | eLeftOor
deriving DecidableEq, Repr

/-- The STATUS value of an outcome (30_encoding.md R77). -/
def Status.code : Status → BitVec 2
  | .ok => 0b00#2
  | .eOrder => 0b01#2
  | .eRightOor => 0b10#2
  | .eLeftOor => 0b11#2

/-- The outcome a STATUS value stands for: all four values are used, none is reserved (30_encoding.md R77). -/
def Status.ofCode (c : BitVec 2) : Status :=
  if c = 0b00#2 then .ok else if c = 0b01#2 then .eOrder else if c = 0b10#2 then .eRightOor else .eLeftOor

/-- The three conditions of INSERT's validation (40_insert.md R102). -/
inductive IndexCheck where
  | order
  | right
  | left
deriving DecidableEq, Repr

/-- Whether a condition is broken. The whole 32-bit operands are compared as unsigned integers (40_insert.md R102, R112). -/
def IndexCheck.violated (c : IndexCheck) (ridx lidx : Word) : Bool :=
  match c with
  | .order => decide (ridx.toNat > lidx.toNat)
  | .right => decide (ridx.toNat > 31)
  | .left => decide (lidx.toNat > 31)

/-- The error a broken condition raises (40_insert.md R102). -/
def IndexCheck.error : IndexCheck → Status
  | .order => .eOrder
  | .right => .eRightOor
  | .left => .eLeftOor

/-- The order in which the conditions are checked (40_insert.md R102; 92_eei_decisions.md D12). -/
def validationOrder : List IndexCheck := [.order, .right, .left]

/-- Every error whose condition holds, in the order of the checks (93_implementation_defined.md I1: the codes a conservative
reading of the original software would draw from). -/
def applicableErrors (ridx lidx : Word) : List Status :=
  (validationOrder.filter fun c => c.violated ridx lidx).map IndexCheck.error

/-- INSERT's validation: the first check that fails decides (40_insert.md R102, 60_exceptions.md R145); `none` when none fails. -/
def validate (ridx lidx : Word) : Option Status := (applicableErrors ridx lidx).head?

end Sys2Proof.Machine
end

