-- ==== Sys2Proof/Machine/Operands.lean ====
section
/-! DEFINITION. The operand forms and the named bit computations of the two commands (00_scope.md R12, 40_insert.md R103,
41_tobin.md R122, R127, R129). -/

namespace Sys2Proof.Machine

/-- `uint(IDX[4:0])`: the low five bits of an index that has passed validation (40_insert.md R103, 30_encoding.md R75). -/
def indexBits (idx : Word) : Nat := (idx.extractLsb' 0 5).toNat

/-- `ones(n)` for `n ≤ 32`: bits `0..n-1` are 1 and the others 0; `ones(32)` is all ones (00_scope.md R12). -/
def ones (n : Nat) : Word := BitVec.ofNat 32 (2 ^ n - 1)

/-- `w = l - r + 1`, the width of the range (40_insert.md R103, R116). -/
def rangeWidth (r l : Nat) : Nat := l - r + 1

/-- `KEEP = ~(WM << r)`: set outside the range (40_insert.md R103). -/
def preservationMask (r l : Nat) : Word := ~~~(ones (rangeWidth r l) <<< r)

/-- The character of one bit (00_scope.md R15). -/
def bitChar (b : Bool) : Char := if b then '1' else '0'

/-- The 8-bit code of a character of the binary string: `CHAR1` for `'1'`, `CHAR0` for `'0'` (30_encoding.md R80). -/
def charCode (c : Char) : Byte := if c = '1' then Config.char1 else Config.char0

/-- `STR[i]` for one position: the character of bit `63 - i` (41_tobin.md R122). -/
def stringChar (val : DWord) (i : Nat) : Char := bitChar (val.getLsbD (63 - i))

/-- `STR[0..63]`, the most significant bit first (41_tobin.md R122, R126). -/
def binaryString (val : DWord) : Text := (List.range 64).map (stringChar val)

/-- Bytes laid into DATA from the low end: byte `i` of the list is `DATA[8i+7:8i]` (30_encoding.md R80). -/
def packBytes : List Byte → RspData
  | [] => 0#512
  | b :: bs => (packBytes bs <<< 8) ||| b.setWidth 512

/-- `DATA[8i+7:8i]` (30_encoding.md R80, 20_memory.md R55). -/
def dataByte (data : RspData) (i : Nat) : Byte := data.extractLsb' (8 * i) 8

/-- `b_i` of `parse` (41_tobin.md R127). -/
def charDigit (c : Char) : Nat := if c = '1' then 1 else 0

/-- `parse(STR) = Σ b_i · 2^(63-i)` (41_tobin.md R127). -/
def parseBinary (str : Text) : Nat := ((List.range 64).map fun i => charDigit (str.getD i '0') * 2 ^ (63 - i)).sum

/-- The binary64 field view (41_tobin.md R129, informative): no command depends on it. -/
def signField (val : DWord) : Bool := val.getLsbD 63

/-- The 11-bit biased exponent of the binary64 field view (41_tobin.md R129, informative). -/
def exponentField (val : DWord) : BitVec 11 := val.extractLsb' 52 11

/-- The 52-bit fraction of the binary64 field view (41_tobin.md R129, informative). -/
def fractionField (val : DWord) : BitVec 52 := val.extractLsb' 0 52

end Sys2Proof.Machine
end

