-- ==== Sys2Proof/Machine/State.lean ====
section
/-! DEFINITION. What the CORE holds (10_state.md R39, R40, R43), what the host drives and has received (R37, R44), and the
reasons a step stops. The CORE has no registers, program counter, flags, control registers or memory (R30 to R35). -/

namespace Sys2Proof.Machine

/-- One pipeline slot `S[k]` (10_state.md R39). -/
structure Slot where
  /-- `S[k].v`. -/
  v : Bool
  /-- `S[k].w`. -/
  w : RspWord
deriving DecidableEq, Repr

/-- What the host drives in one cycle (10_state.md R37). -/
structure Drive where
  /-- `rst`, active high. -/
  rst : Bool
  /-- `cmd_valid`. -/
  cmdValid : Bool
  /-- `cmd_word`; `none` when the host leaves bits of it undriven or unknown (93_implementation_defined.md I4). -/
  cmdWord : Option CmdWord
deriving DecidableEq, Repr

/-- A cycle in which the host issues nothing and resets nothing. -/
def Drive.idle : Drive := { rst := false, cmdValid := false, cmdWord := none }

/-- A cycle in which the host issues a command. -/
def Drive.issue (cw : CmdWord) : Drive := { rst := false, cmdValid := true, cmdWord := some cw }

/-- The machine. `slots` is all the state the CORE itself has (10_state.md R40); the rest is the host's side of the ports and
the model's own source of free values. -/
structure State where
  /-- `S[1..N]`, `S[1]` first. Its length is `PIPELINE_STAGES`; the empty list is the zero-latency form, whose state is the
  unit type (10_state.md R39, R44). -/
  slots : List Slot
  /-- The input ports: what the host drives in this cycle (the head) and in the cycles after it (10_state.md R31, R37, R41).
  After the last entry the host drives idle cycles. -/
  inputs : List Drive
  /-- The responses delivered so far, oldest first: `rsp_word` of every cycle with `rsp_valid = 1` (10_state.md R44,
  70_reset_and_hazards.md R166, R169). -/
  responses : List RspWord
  /-- The MODEL's own field, not the spec's: which free values have been used (log entry 2). It advances once a step. -/
  freeTick : Nat
deriving DecidableEq, Repr

/-- `PIPELINE_STAGES` of the machine a state belongs to. -/
def State.stages (s : State) : Nat := s.slots.length

/-- The CORE has no fault state and no stuck state (10_state.md R44): nothing raises a fault. -/
inductive Fault
deriving DecidableEq, Repr

/-- Why a step is refused. -/
inductive Refusal where
  /-- Raised by `exec` for an instruction without a meaning; no arm raises it now. Safe. -/
  | notModelled (mnemonic : String)
  /-- Raised by a cycle that issues a command whose word has undriven or unknown bits: the spec gives it no meaning and says to
  refuse it (93_implementation_defined.md I4). Safe: the model stops where the hardware answers something. -/
  | undrivenCommandWord
deriving DecidableEq, Repr

/-- `N` slots as a reset leaves them: every valid bit 0, every payload free (10_state.md R43, 70_reset_and_hazards.md R160). -/
def clearedSlots (tick n : Nat) : List Slot :=
  (List.range n).map fun k => { v := false, w := Config.freePayload tick (k + 1) }

/-- The machine with `PIPELINE_STAGES = n` right after reset, with nothing driven and nothing received (10_state.md R43). -/
def State.resetWith (n : Nat) : State :=
  { slots := clearedSlots 0 n, inputs := [], responses := [], freeTick := 1 }

/-- The machine right after reset, in the form of the parameter's default. -/
def State.reset : State := State.resetWith Config.pipelineStagesDefault

end Sys2Proof.Machine
end

