-- ==== Sys2Proof/Machine/Ops.lean ====
section
/-! DEFINITION. The shared operations: forming a response, an error response among them, and one clock cycle of the ports and
the pipeline slots (30_encoding.md R76 to R79, 10_state.md R38, R39, 70_reset_and_hazards.md R160). -/

namespace Sys2Proof.Machine

/-- A response word: `STATUS = RW[513:512]`, `DATA = RW[511:0]` (30_encoding.md R76). -/
def respond (status : Status) (data : RspData) : RspWord := status.code ++ data

/-- `raise E`: the CORE's only form of exception. It ends the command with the error's code and DATA zero, saves no state,
changes no mode and transfers control nowhere; there is nothing to return from (00_scope.md R14, 30_encoding.md R79,
60_exceptions.md R140, R146, R147). -/
def raiseError (e : Status) : RspWord := respond e 0#512

/-- The STATUS field of a response word (30_encoding.md R76). -/
def rspStatus (rw : RspWord) : Status := Status.ofCode (rw.extractLsb' 512 2)

/-- The DATA field of a response word (30_encoding.md R76). -/
def rspData (rw : RspWord) : RspData := rw.extractLsb' 0 512

/-- `DATA[31:0]`: the part of a response a host reads after an INSERT (30_encoding.md R78, 20_memory.md R59). -/
def rspWord32 (rw : RspWord) : Word := rw.extractLsb' 0 32

/-- The string a host reads after a TOBIN: character `i` from byte `i` of DATA (30_encoding.md R80). -/
def rspString (rw : RspWord) : Text :=
  (List.range 64).map fun i => if dataByte (rspData rw) i = Config.char1 then '1' else '0'

/-- The (valid, word) pair on the response port in a cycle whose command port carries `new`: `S[N]` in the pipelined form,
the command's own response in the zero-latency form (10_state.md R38, R39). -/
def portSlot (new : Slot) (slots : List Slot) : Slot := slots.getLast?.getD new

/-- One clock edge with `rst = 0`: `S[1] <- new`, `S[k] <- S[k-1]`, all together (10_state.md R39). With no slots there is
nothing to move. -/
def shiftSlots (new : Slot) (slots : List Slot) : List Slot := (new :: slots).take slots.length

/-- What the host receives in a cycle: the word of the port if it is valid (70_reset_and_hazards.md R166). -/
def delivered (out : Slot) : List RspWord := if out.v then [out.w] else []

/-- A cycle with `rst = 0` (or in the zero-latency form) whose command port carries `new` (10_state.md R38, R39). -/
def clockCycle (new : Slot) (s : State) : State :=
  { s with
    slots := shiftSlots new s.slots
    responses := s.responses ++ delivered (portSlot new s.slots)
    freeTick := s.freeTick + 1 }

/-- A cycle in which a command is issued and its response is `rw`: the one way a command acts on the machine. -/
def issueCycle (rw : RspWord) (s : State) : State := clockCycle { v := true, w := rw } s

/-- A cycle with `rst = 1` in the pipelined form. The response on the port in that cycle is still delivered; the edge then
clears every slot, and a command presented is dropped (70_reset_and_hazards.md R160, R161; log entry 7). -/
def resetCycle (s : State) : State :=
  { s with
    slots := clearedSlots s.freeTick s.slots.length
    responses := s.responses ++ (s.slots.getLast?.map delivered).getD []
    freeTick := s.freeTick + 1 }

end Sys2Proof.Machine
end

