-- ==== Sys2Proof/Machine/Insert.lean ====
section
/-! DEFINITION. INSERT, the bit-range inserter BRI (40_insert.md). -/

namespace Sys2Proof.Machine

/-- `RES` for a range that has passed validation (40_insert.md R103): logical shifts and masks only. -/
def insertResult (src ins : Word) (r l : Nat) : Word :=
  (src &&& preservationMask r l) ||| ((ins &&& ones (rangeWidth r l)) <<< r)

/-- The response of INSERT: validation first, then the computation (40_insert.md R102, R103). -/
def insertResponse (src ins ridx lidx : Word) : RspWord :=
  match validate ridx lidx with
  | some e => raiseError e
  | none => respond .ok ((insertResult src ins (indexBits ridx) (indexBits lidx)).setWidth 512)

/-- INSERT: one cycle that issues it (40_insert.md R100 to R106). -/
def execInsert (src ins ridx lidx : Word) (s : State) : Host.Outcome State Fault Refusal :=
  .next (issueCycle (insertResponse src ins ridx lidx) s)

end Sys2Proof.Machine
end

