-- ==== Sys2Proof/Machine/Tobin.lean ====
section
/-! DEFINITION. TOBIN, the double-to-binary-string converter DBD (41_tobin.md). -/

namespace Sys2Proof.Machine

/-- `U = VAL`: the bit-pattern reinterpretation is the identity on the 64 bits, never a conversion (41_tobin.md R122, R123,
20_memory.md R56). -/
def reinterpretDouble (val : DWord) : DWord := val

/-- The DATA of a TOBIN (41_tobin.md R122). -/
def tobinData (val : DWord) : RspData := packBytes ((binaryString (reinterpretDouble val)).map charCode)

/-- The response of TOBIN: never an error (41_tobin.md R122, R124). -/
def tobinResponse (val : DWord) : RspWord := respond .ok (tobinData val)

/-- TOBIN: one cycle that issues it (41_tobin.md R120 to R125). -/
def execTobin (val : DWord) (s : State) : Host.Outcome State Fault Refusal :=
  .next (issueCycle (tobinResponse val) s)

end Sys2Proof.Machine
end

