-- ==== Sys2Proof/Machine/Dispatch.lean ====
section
/-! DEFINITION. One arm per command (30_encoding.md R73). -/

namespace Sys2Proof.Machine

/-- The effect of a command that is issued in the current cycle. -/
def exec (i : Instr) (s : State) : Host.Outcome State Fault Refusal :=
  match i with
  | .insert src ins ridx lidx => Sys2Proof.Machine.execInsert src ins ridx lidx s
  | .tobin val => Sys2Proof.Machine.execTobin val s

end Sys2Proof.Machine
end

