-- ==== Sys2Proof/Machine/Cycle.lean ====
section
/-! DEFINITION. The response function F, the signals of the ports in the current cycle, and what one cycle does with what the
host drives (10_state.md R36 to R39, R42, 70_reset_and_hazards.md R160). -/

namespace Sys2Proof.Machine

/-- `F : CW (129 bits) → RW (514 bits)`, the response of a command word: it reads no state (10_state.md R36). -/
def F (cw : CmdWord) : RspWord :=
  match decode cw with
  | .insert src ins ridx lidx => insertResponse src ins ridx lidx
  | .tobin val => tobinResponse val

/-- `F(cmd_word)` for what the host drives; a word with undriven bits gives a free value (10_state.md R39, log entry 2). -/
def drivenResponse (d : Drive) (tick : Nat) : RspWord :=
  match d.cmdWord with
  | some cw => F cw
  | none => Config.freePayload tick 0

/-- What the host drives in the current cycle; an idle cycle when it has nothing more to drive (log entry 6). -/
def State.drive (s : State) : Drive := s.inputs.headD Drive.idle

/-- `(cmd_valid, F(cmd_word))` of the current cycle (10_state.md R39). -/
def State.commandSlot (s : State) : Slot :=
  { v := s.drive.cmdValid, w := drivenResponse s.drive s.freeTick }

/-- `rsp_valid` in the current cycle: `cmd_valid` in the zero-latency form, `S[N].v` in the pipelined form (10_state.md R38, R39). -/
def State.rspValid (s : State) : Bool := (portSlot s.commandSlot s.slots).v

/-- The wire behind `rsp_word` in the current cycle: `F(cmd_word)` or `S[N].w` (10_state.md R38, R39). -/
def State.rspWire (s : State) : RspWord := (portSlot s.commandSlot s.slots).w

/-- `rsp_word` in the current cycle as a host may rely on it: a free value whenever `rsp_valid = 0` (10_state.md R42; log entry 3). -/
def State.rspWord (s : State) : RspWord := if s.rspValid then s.rspWire else Config.freeRspWord s.freeTick

/-- One cycle in which the host drives `d` (`s.inputs` already stands past it). In the pipelined form `rst` wins; otherwise a
valid command is decoded and executed, and a cycle without one moves the pipeline on (10_state.md R38, R39,
70_reset_and_hazards.md R160). -/
def runDrive (d : Drive) (s : State) : Host.Outcome State Fault Refusal :=
  if d.rst && !s.slots.isEmpty then .next (resetCycle s)
  else if d.cmdValid then
    match d.cmdWord with
    | some cw => exec (decode cw) s
    | none => .refused .undrivenCommandWord
  else .next (clockCycle { v := false, w := drivenResponse d s.freeTick } s)

end Sys2Proof.Machine
end

