-- ==== Sys2Proof/Machine/Step.lean ====
section
/-! DEFINITION. One step is one clock cycle: the host's drive of the cycle is taken from the input ports and acted on
(10_state.md R31, R44). There is no program counter and no fetch: the command word on the port is the next instruction. -/

namespace Sys2Proof.Machine

/-- One clock cycle. -/
def step (s : State) : Host.Outcome State Fault Refusal := runDrive s.drive { s with inputs := s.inputs.tail }

/-- `s` with one more cycle before what the host drives next: it issues the command word that `w` numbers (log entry 1). -/
def State.withFetchWord (s : State) (nbits w : Nat) : State :=
  { s with
    inputs := { rst := false, cmdValid := true, cmdWord := (tableCommandWord nbits w).toOption } :: s.inputs }

end Sys2Proof.Machine
end

