-- ==== Sys2Proof/Machine/Bus.lean ====
section
/-! DEFINITION. The words on a byte-addressed bus (20_memory.md R58). The CORE itself has no bytes and no memory; these are the
mappings that the `OPEN` parameter `BUS_BYTE_ORDER` chooses between. -/

namespace Sys2Proof.Machine

/-- Byte `j` of a value of `n` whole bytes is its bits `[8j+7:8j]` (20_memory.md R58). -/
def bytesLow {width : Nat} (n : Nat) (v : BitVec width) : List Byte := (List.range n).map fun j => v.extractLsb' (8 * j) 8

/-- The bytes by offset: with `little` byte `j` is at offset `j`, with `big` the offsets are reversed (20_memory.md R58). -/
def orderBytes (order : ByteOrder) (bytes : List Byte) : List Byte :=
  match order with
  | .little => bytes
  | .big => bytes.reverse

/-- The 17 bytes of a command word; the 7 bits above it in the last byte are free (log entry 5). -/
def cmdBusBytes (order : ByteOrder) (cw : CmdWord) : List Byte := orderBytes order (bytesLow 17 (Config.cmdPad ++ cw))

/-- The 65 bytes of a response word; the 6 bits above it in the last byte are free (log entry 5). -/
def rspBusBytes (order : ByteOrder) (rw : RspWord) : List Byte := orderBytes order (bytesLow 65 (Config.rspPad ++ rw))

/-- The 64 bytes of a DATA field stored by itself from offset 0. 20_memory.md R58 gives them for `little` only; that `big` reverses
DATA's own 64 bytes is the model's choice (DESIGN CHOICE, log entry 16). -/
def dataBusBytes (order : ByteOrder) (data : RspData) : List Byte := orderBytes order (bytesLow 64 data)

/-- The value whose low bytes are those of a list, byte 0 lowest. -/
def joinBytes (width : Nat) : List Byte → BitVec width
  | [] => 0#width
  | b :: bs => (joinBytes width bs <<< 8) ||| b.setWidth width

/-- The command word that 17 bytes on the bus carry; the bits above it are not looked at. -/
def cmdOfBusBytes (order : ByteOrder) (bytes : List Byte) : CmdWord := (joinBytes 136 (orderBytes order bytes)).setWidth 129

/-- The response word that 65 bytes on the bus carry; the bits above it are not looked at. -/
def rspOfBusBytes (order : ByteOrder) (bytes : List Byte) : RspWord := (joinBytes 520 (orderBytes order bytes)).setWidth 514

end Sys2Proof.Machine
end

