-- ==== Sys2Proof/Machine/Assembler.lean ====
section
/-! DEFINITION. The assembler's notation: literals, command lines, pseudo-instructions and disassembly (30_encoding.md R82 to
R87). It is the host's tool; the CORE only ever sees command words. -/

namespace Sys2Proof.Machine

/-- Why the assembler rejects a line and encodes nothing (30_encoding.md R82, R83). -/
inductive AsmError where
  /-- The line begins with no mnemonic of R82 or R85. -/
  | unknownMnemonic
  /-- The mnemonic takes another number of operands. -/
  | operandCount
  /-- An operand is not a literal of its field's form. -/
  | badLiteral
  /-- A literal that does not fit its field (30_encoding.md R83). -/
  | literalDoesNotFit
  /-- A `$name` that is not a name, or a binding without `=`. -/
  | badName
deriving DecidableEq, Repr

/-- An operand of 32 bits: a literal, or a host variable (30_encoding.md R86). -/
inductive Arg32 where
  | lit (v : Word)
  | var (name : Text)
deriving DecidableEq, Repr

/-- A `<val>` operand: a literal, a host variable, or the pair `$hi:$lo` (30_encoding.md R86). -/
inductive Arg64 where
  | lit (v : DWord)
  | var (name : Text)
  | pair (hi lo : Text)
deriving DecidableEq, Repr

/-- A command of the notation, the pseudo-instructions included (30_encoding.md R82, R85). -/
inductive AsmCommand where
  | insert (src ins right left : Arg32)
  | tobin (val : Arg64)
  | setbit (s n : Arg32)
  | clrbit (s n : Arg32)
  | clrrange (s right left : Arg32)
  | movw (i : Arg32)
  | cw (word : CmdWord)
deriving DecidableEq, Repr

/-- A line: a command, optionally bound to a host variable (30_encoding.md R86). -/
structure AsmLine where
  bind : Option Text
  command : AsmCommand
deriving DecidableEq, Repr

/-- The single INSERT a pseudo-instruction stands for (30_encoding.md R85); any other command is itself. -/
def AsmCommand.expand : AsmCommand → AsmCommand
  | .setbit s n => .insert s (.lit 1#32) n n
  | .clrbit s n => .insert s (.lit 0#32) n n
  | .clrrange s right left => .insert s (.lit 0#32) right left
  | .movw i => .insert (.lit 0#32) i (.lit 0#32) (.lit 31#32)
  | .insert src ins right left => .insert src ins right left
  | .tobin val => .tobin val
  | .cw word => .cw word

/-! ### Characters and numbers -/

/-- The value of a decimal digit. -/
def decDigit (c : Char) : Option Nat := if '0' ≤ c ∧ c ≤ '9' then some (c.toNat - 48) else none

/-- The value of a hexadecimal digit, of either case. -/
def hexDigit (c : Char) : Option Nat :=
  if '0' ≤ c ∧ c ≤ '9' then some (c.toNat - 48)
  else if 'A' ≤ c ∧ c ≤ 'F' then some (c.toNat - 55)
  else if 'a' ≤ c ∧ c ≤ 'f' then some (c.toNat - 87)
  else none

/-- The number a digit string stands for in a base, the most significant digit first; at least one digit. -/
def parseDigits (base : Nat) (digit : Char → Option Nat) (t : Text) : Option Nat :=
  if t = [] then none
  else t.foldl (fun acc c => acc.bind fun n => (digit c).map fun d => base * n + d) (some 0)

/-- `0x` followed by 1 to `maxDigits` hexadecimal digits: the digits' number (30_encoding.md R83). -/
def parseHex (maxDigits : Nat) (t : Text) : Except AsmError Nat :=
  match parseDigits 16 hexDigit t with
  | none => .error .badLiteral
  | some n => if t.length ≤ maxDigits then .ok n else .error .literalDoesNotFit

/-- The vector a decimal integer stands for in a 32-bit data field: `sint32` for `-2^31..2^31-1`, `uint` for `2^31..2^32-1`
(00_scope.md R13, 30_encoding.md R83). -/
def wordOfInt (i : Int) : Except AsmError Word :=
  if -2147483648 ≤ i ∧ i ≤ 4294967295 then .ok (BitVec.ofInt 32 i) else .error .literalDoesNotFit

/-- A decimal digit string. -/
def parseNat (t : Text) : Except AsmError Nat :=
  match parseDigits 10 decDigit t with
  | none => .error .badLiteral
  | some n => .ok n

/-- A literal of an index field: unsigned decimal, or hexadecimal; values above 31 are accepted (30_encoding.md R83). That
leading zeros are allowed is the model's choice (DESIGN CHOICE, log entry 17). -/
def parseIndexLit (t : Text) : Except AsmError Word :=
  match t with
  | '0' :: 'x' :: h => (parseHex 8 h).map (BitVec.ofNat 32)
  | d => (parseNat d).bind fun n => wordOfInt n

/-- A literal of a data field: decimal with an optional minus sign, or hexadecimal (30_encoding.md R83). R83 names an optional
sign only for floating literals: that a leading `+` is rejected here is the model's choice (DESIGN CHOICE, log entry 17). -/
def parseDataLit (t : Text) : Except AsmError Word :=
  match t with
  | '-' :: d => (parseNat d).bind fun n => wordOfInt (-(n : Int))
  | d => parseIndexLit d

/-! ### Floating literals -/

/-- `n / d` rounded to the nearest natural number, ties to even. -/
def roundHalfEven (n d : Nat) : Nat :=
  let q := n / d
  let rem := n % d
  if 2 * rem < d then q else if d < 2 * rem then q + 1 else if q % 2 = 0 then q else q + 1

/-- `⌊log₂ (n/d)⌋` for positive `n` and `d`. -/
def floorLog2 (n d : Nat) : Int :=
  let k : Int := (n.log2 : Int) - d.log2
  let reaches : Bool := if 0 ≤ k then decide (d * 2 ^ k.toNat ≤ n) else decide (d ≤ n * 2 ^ (-k).toNat)
  if reaches then k else k - 1

/-- The 63-bit magnitude pattern of the binary64 value nearest to `n / d`, ties to even (30_encoding.md R83; the binary64
layout is 93_implementation_defined.md G3, G6): `0x7FF0000000000000` or above when the nearest value is out of range. -/
def nearestBinary64 (n d : Nat) : Nat :=
  if n = 0 then 0
  else
    let ulp : Int := max (floorLog2 n d - 52) (-1074)
    let m := if 0 ≤ ulp then roundHalfEven n (d * 2 ^ ulp.toNat) else roundHalfEven (n * 2 ^ (-ulp).toNat) d
    (ulp + 1074).toNat * 2 ^ 52 + m

/-- The pattern of `±digits · 10^e`; a literal that rounds beyond the finite values does not fit (log entry 9). -/
def doubleOfDecimal (negative : Bool) (digits : Nat) (e : Int) : Except AsmError DWord :=
  let magnitude := if 0 ≤ e then nearestBinary64 (digits * 10 ^ e.toNat) 1 else nearestBinary64 digits (10 ^ (-e).toNat)
  if magnitude < 0x7FF0000000000000 then .ok (BitVec.ofNat 64 ((if negative then 2 ^ 63 else 0) + magnitude))
  else .error .literalDoesNotFit

/-- An exponent part `e±d` after its letter; the sign may be left out (log entry 9). -/
def parseExponent (t : Text) : Except AsmError Int :=
  match t with
  | '-' :: d => (parseNat d).map fun n => -(n : Int)
  | '+' :: d => (parseNat d).map fun n => (n : Int)
  | d => (parseNat d).map fun n => (n : Int)

/-- A decimal floating literal without its sign: digits, a `.` and/or an exponent (30_encoding.md R83; log entry 9). -/
def parseUnsignedFloat (negative : Bool) (t : Text) : Except AsmError DWord :=
  let isDigit : Char → Bool := fun c => (decDigit c).isSome
  let whole := t.takeWhile isDigit
  let rest := t.dropWhile isDigit
  let (frac, tail) : Text × Text :=
    match rest with
    | '.' :: r => (r.takeWhile isDigit, r.dropWhile isDigit)
    | r => ([], r)
  let digits := parseDigits 10 decDigit (whole ++ frac)
  match digits, tail with
  | none, _ => .error .badLiteral
  | some n, [] =>
    if whole = [] ∨ rest = [] then .error .badLiteral else doubleOfDecimal negative n (-(frac.length : Int))
  | some n, c :: e =>
    if whole = [] ∨ ¬(c = 'e' ∨ c = 'E') then .error .badLiteral
    else (parseExponent e).bind fun x => doubleOfDecimal negative n (x - frac.length)

/-- A literal of a `<val>` field: the bit pattern in hexadecimal, or a floating literal (30_encoding.md R83). -/
def parseValLit (t : Text) : Except AsmError DWord :=
  match t with
  | '0' :: 'x' :: h => (parseHex 16 h).map (BitVec.ofNat 64)
  | '-' :: r => parseUnsignedFloat true r
  | '+' :: r => parseUnsignedFloat false r
  | r => parseUnsignedFloat false r

/-- The operand of `.cw`: 33 hexadecimal digits, the top one 0 or 1 (30_encoding.md R84, R85). -/
def parseCwDigits (t : Text) : Except AsmError CmdWord :=
  if t.length ≠ 33 then .error .badLiteral
  else
    match parseDigits 16 hexDigit t with
    | none => .error .badLiteral
    | some n => if commandWordFits n then .ok (BitVec.ofNat 129 n) else .error .literalDoesNotFit

/-! ### Lines -/

/-- The white space between the parts of a line. -/
def isBlank (c : Char) : Bool := c = ' ' || c = '\t' || c = '\r'

/-- A text without the white space at its two ends. -/
def trimText (t : Text) : Text := ((t.dropWhile isBlank).reverse.dropWhile isBlank).reverse

/-- A text cut at every occurrence of a character. -/
def splitAt (sep : Char) : Text → List Text
  | [] => [[]]
  | c :: cs =>
    if c = sep then [] :: splitAt sep cs
    else
      match splitAt sep cs with
      | [] => [[c]]
      | t :: ts => (c :: t) :: ts

/-- The letter's capital (mnemonics are case-insensitive, 30_encoding.md R82; those of R85 too, log entry 10). -/
def capital (c : Char) : Char := if 'a' ≤ c ∧ c ≤ 'z' then Char.ofNat (c.toNat - 32) else c

/-- The characters of a host variable's name (log entry 10). -/
def isNameChar (c : Char) : Bool := c.isAlphanum || c = '_'

/-- A name after its `$`: one or more name characters, kept in the case they are written in (log entry 10). -/
def parseName (t : Text) : Except AsmError Text :=
  if t ≠ [] ∧ t.all isNameChar then .ok t else .error .badName

/-- A data operand (30_encoding.md R83, R86). -/
def parseDataArg (t : Text) : Except AsmError Arg32 :=
  match t with
  | '$' :: n => (parseName n).map .var
  | _ => (parseDataLit t).map .lit

/-- An index operand (30_encoding.md R83, R86). -/
def parseIndexArg (t : Text) : Except AsmError Arg32 :=
  match t with
  | '$' :: n => (parseName n).map .var
  | _ => (parseIndexLit t).map .lit

/-- A `<val>` operand (30_encoding.md R83, R86). -/
def parseValArg (t : Text) : Except AsmError Arg64 :=
  match t with
  | '$' :: n =>
    match splitAt ':' n with
    | [hi, '$' :: lo] => (parseName hi).bind fun h => (parseName lo).map fun l => .pair h l
    | _ => (parseName n).map .var
  | _ => (parseValLit t).map .lit

/-- A command from its mnemonic in capitals and its operands (30_encoding.md R82, R85). -/
def parseCommand (mnemonic : Text) (operands : List Text) : Except AsmError AsmCommand :=
  if mnemonic = "INSERT".toList then
    match operands with
    | [s, i, r, l] =>
      (parseDataArg s).bind fun s => (parseDataArg i).bind fun i => (parseIndexArg r).bind fun r =>
        (parseIndexArg l).map fun l => .insert s i r l
    | _ => .error .operandCount
  else if mnemonic = "TOBIN".toList then
    match operands with
    | [v] => (parseValArg v).map .tobin
    | _ => .error .operandCount
  else if mnemonic = "SETBIT".toList then
    match operands with
    | [s, n] => (parseDataArg s).bind fun s => (parseIndexArg n).map fun n => .setbit s n
    | _ => .error .operandCount
  else if mnemonic = "CLRBIT".toList then
    match operands with
    | [s, n] => (parseDataArg s).bind fun s => (parseIndexArg n).map fun n => .clrbit s n
    | _ => .error .operandCount
  else if mnemonic = "CLRRANGE".toList then
    match operands with
    | [s, r, l] =>
      (parseDataArg s).bind fun s => (parseIndexArg r).bind fun r => (parseIndexArg l).map fun l => .clrrange s r l
    | _ => .error .operandCount
  else if mnemonic = "MOVW".toList then
    match operands with
    | [i] => (parseDataArg i).map .movw
    | _ => .error .operandCount
  else if mnemonic = ".CW".toList then
    match operands with
    | [w] => (parseCwDigits w).map .cw
    | _ => .error .operandCount
  else .error .unknownMnemonic

/-- A trimmed, non-empty line without its binding: the mnemonic, then the operands between commas. -/
def parseCommandText (t : Text) : Except AsmError AsmCommand :=
  let mnemonic := (t.takeWhile fun c => !isBlank c).map capital
  let rest := trimText (t.dropWhile fun c => !isBlank c)
  parseCommand mnemonic (if rest = [] then [] else (splitAt ',' rest).map trimText)

/-- One line of text: a comment runs from `;` to the end; a line of nothing else is no command (30_encoding.md R82, R86). -/
def parseLine (line : Text) : Except AsmError (Option AsmLine) :=
  match trimText (line.takeWhile fun c => c ≠ ';') with
  | [] => .ok none
  | '$' :: t =>
    let name := t.takeWhile isNameChar
    match trimText (t.dropWhile isNameChar) with
    | '=' :: command =>
      (parseName name).bind fun n =>
        (parseCommandText (trimText command)).map fun c => some { bind := some n, command := c }
    | _ => .error .badName
  | t => (parseCommandText t).map fun c => some { bind := none, command := c }

/-- A program text: one command per line (30_encoding.md R82, R86). -/
def parseProgram (program : Text) : Except AsmError (List AsmLine) :=
  ((splitAt '\n' program).mapM parseLine).map fun ls => ls.filterMap id

/-! ### Encoding and disassembly -/

/-- The command word of a command whose operands are all literals (30_encoding.md R84, R85); `none` when a host variable is left. -/
def AsmCommand.literalWord (c : AsmCommand) : Option CmdWord :=
  match c.expand with
  | .insert (.lit s) (.lit i) (.lit r) (.lit l) => some (encode (.insert s i r l))
  | .tobin (.lit v) => some (encode (.tobin v))
  | .cw word => some word
  | _ => none

/-- The command word of one line of text, when it is a command of literals. -/
def assembleText (line : Text) : Option CmdWord :=
  match parseLine line with
  | .ok (some l) => l.command.literalWord
  | _ => none

/-- The digit of a value below 16, in capitals. -/
def hexChar (d : Nat) : Char := "0123456789ABCDEF".toList.getD d '0'

/-- Exactly `k` hexadecimal digits of `n`, the most significant first. -/
def hexText : (k n : Nat) → Text
  | 0, _ => []
  | k + 1, n => hexText k (n / 16) ++ [hexChar (n % 16)]

/-- The decimal digits of `n`, at most `fuel` of them, without leading zeros. -/
def decText : (fuel n : Nat) → Text
  | 0, _ => []
  | fuel + 1, n => if n < 10 then [hexChar n] else decText fuel (n / 10) ++ [hexChar (n % 10)]

/-- `%u` of a 32-bit value: it has at most ten decimal digits. -/
def unsignedText (v : Word) : Text := decText 10 v.toNat

/-- A command word as 33 hexadecimal digits, `OP` the top one (30_encoding.md R84). -/
def cwText (cw : CmdWord) : Text := hexText 33 cw.toNat

/-- The line a command word is printed as; a TOBIN's ignored bits are not printed (30_encoding.md R87). -/
def disassemble (cw : CmdWord) : Text :=
  match decode cw with
  | .insert s i r l =>
    "INSERT 0x".toList ++ hexText 8 s.toNat ++ ", 0x".toList ++ hexText 8 i.toNat ++ ", ".toList ++ unsignedText r
      ++ ", ".toList ++ unsignedText l
  | .tobin v => "TOBIN 0x".toList ++ hexText 16 v.toNat

end Sys2Proof.Machine
end

