-- ==== Sys2Proof/Machine/Script.lean ====
section
/-! DEFINITION. A host that drives the CORE from a host program (30_encoding.md R86, 70_reset_and_hazards.md R165, R166, R169).
The host, its variables and its schedule are outside the CORE (10_state.md R41); each cycle of it is one `step` of the machine. -/

namespace Sys2Proof.Machine

/-- Why a host program cannot go on. None of these is an event of the CORE. -/
inductive ScriptError where
  /-- A line uses a name that no earlier line has bound. -/
  | unboundName
  /-- A line uses the result of a command whose response was an error: it returned no value (30_encoding.md R79). -/
  | noValue
  /-- A line uses a 64-character string as an operand: it fits no field (30_encoding.md R86). -/
  | doesNotFit
  /-- The machine did not answer a next state. -/
  | coreStopped
deriving DecidableEq, Repr

/-- What `$name` denotes once its response has arrived (30_encoding.md R86). -/
inductive HostValue where
  /-- The 32-bit `RES` of an INSERT. -/
  | word (v : Word)
  /-- The 64-character string of a TOBIN. -/
  | string (t : Text)
deriving DecidableEq, Repr

/-- The value a command returned with its response; none with an error response (30_encoding.md R79, R86; log entry 11). -/
def resultOf (cw : CmdWord) (rw : RspWord) : Option HostValue :=
  if rspStatus rw = .ok then
    match decode cw with
    | .insert _ _ _ _ => some (.word (rspWord32 rw))
    | .tobin _ => some (.string (rspString rw))
  else none

/-- A host variable once its response has arrived: `$name.status` and the value of `$name` (30_encoding.md R86). -/
structure HostVar where
  name : Text
  status : Status
  value : Option HostValue
deriving DecidableEq, Repr

/-- The final state of a host program (70_reset_and_hazards.md R169). -/
structure FinalState where
  /-- The (STATUS, DATA) pairs, one per command in issue order. -/
  responses : List (Status × RspData)
  /-- The host variables bound from the responses. -/
  vars : List HostVar
deriving DecidableEq, Repr

/-- A host program in the middle of its run. The `k`-th response belongs to the `k`-th command issued (70_reset_and_hazards.md
R166), so a variable holds the number of its command. -/
structure HostRun where
  core : State
  /-- The host variables, each name once: the number of the command it is bound to. -/
  vars : List (Text × Nat)
  /-- The commands issued, in issue order. -/
  issued : List CmdWord
  /-- The responses received for them, in the same order. -/
  results : List RspWord
deriving DecidableEq, Repr

/-- A host before its first command, at a machine with nothing in flight. -/
def HostRun.start (core : State) : HostRun := { core := core, vars := [], issued := [], results := [] }

/-- The host takes the response on the port; it belongs to the oldest command without one (70_reset_and_hazards.md R166). -/
def HostRun.take (w : RspWord) (h : HostRun) : HostRun :=
  if h.results.length < h.issued.length then { h with results := h.results ++ [w] } else h

/-- The number of the command a name is bound to. Names are compared character by character, so `$A` and `$a` are two variables:
30_encoding.md R82 makes mnemonics case-insensitive and says nothing of names (DESIGN CHOICE, log entry 10). -/
def HostRun.lookup (name : Text) (h : HostRun) : Option Nat := (h.vars.find? fun b => b.1 = name).map Prod.snd

/-- A binding of a name to a command, once the response to the command has arrived. -/
def HostRun.varOf (b : Text × Nat) (h : HostRun) : Option HostVar :=
  (h.issued[b.2]?).bind fun cw =>
    (h.results[b.2]?).map fun rw => { name := b.1, status := rspStatus rw, value := resultOf cw rw }

/-- What a host knows of a name once the response has arrived: `$name.status`, and `$name` (30_encoding.md R86). -/
def HostRun.var (name : Text) (h : HostRun) : Option HostVar := (h.lookup name).bind fun k => h.varOf (name, k)

/-- `$name.status` (30_encoding.md R86). -/
def HostRun.statusOf (name : Text) (h : HostRun) : Option Status := (h.var name).map HostVar.status

/-- `$name`: the `RES` of an INSERT or the string of a TOBIN, none after an error (30_encoding.md R79, R86). -/
def HostRun.valueOf (name : Text) (h : HostRun) : Option HostValue := (h.var name).bind HostVar.value

/-- `$name` as 32 bits: the `RES` of a successful INSERT. A value used before its response has arrived is free
(70_reset_and_hazards.md R165; log entry 4). -/
def HostRun.value32 (name : Text) (position : Nat) (h : HostRun) : Except ScriptError Word :=
  match (h.lookup name).bind fun k => (h.issued[k]?).map fun cw => (cw, h.results[k]?) with
  | none => .error .unboundName
  | some (cw, none) =>
    match decode cw with
    | .insert _ _ _ _ => .ok ((Config.earlyOperand h.core.freeTick position).setWidth 32)
    | .tobin _ => .error .doesNotFit
  | some (cw, some rw) =>
    match resultOf cw rw with
    | some (.word v) => .ok v
    | some (.string _) => .error .doesNotFit
    | none => .error .noValue

/-- A 32-bit operand (30_encoding.md R86). -/
def HostRun.operand32 (a : Arg32) (position : Nat) (h : HostRun) : Except ScriptError Word :=
  match a with
  | .lit v => .ok v
  | .var name => h.value32 name position

/-- A `<val>` operand; `$hi:$lo` is `{$hi[31:0], $lo[31:0]}` (30_encoding.md R86), and a 32-bit value alone is zero-extended
(log entry 11). -/
def HostRun.operand64 (a : Arg64) (h : HostRun) : Except ScriptError DWord :=
  match a with
  | .lit v => .ok v
  | .var name => (h.value32 name 0).map fun v => v.setWidth 64
  | .pair hi lo => (h.value32 hi 0).bind fun x => (h.value32 lo 1).map fun y => x ++ y

/-- The command word of a line, its variables replaced by their values (30_encoding.md R84 to R86). -/
def HostRun.form (c : AsmCommand) (h : HostRun) : Except ScriptError CmdWord :=
  match c.expand with
  | .insert s i r l =>
    (h.operand32 s 0).bind fun s => (h.operand32 i 1).bind fun i => (h.operand32 r 2).bind fun r =>
      (h.operand32 l 3).map fun l => encode (.insert s i r l)
  | .tobin v => (h.operand64 v).map fun v => encode (.tobin v)
  | .cw word => .ok word
  | _ => .error .doesNotFit

/-- In the pipelined form the response of a cycle does not depend on the command of that cycle, so the host reads it first. -/
def HostRun.takeRegistered (h : HostRun) : HostRun :=
  match h.core.slots.getLast? with
  | some out => (delivered out).foldl (fun r w => r.take w) h
  | none => h

/-- One clock cycle in which the host drives `d`. In the zero-latency form the response comes in the same cycle. -/
def HostRun.clock (d : Drive) (h : HostRun) : Except ScriptError HostRun :=
  match step { h.core with inputs := [d] } with
  | .next core =>
    let fresh := if h.core.slots.isEmpty then core.responses.drop h.core.responses.length else []
    .ok (fresh.foldl (fun r w => r.take w) { h with core := core })
  | .fault _ => .error .coreStopped
  | .refused _ => .error .coreStopped

/-- The host issues a command and binds it to a name, if the line has one; a name bound before is bound anew (log entry 18). -/
def HostRun.record (bind : Option Text) (cw : CmdWord) (h : HostRun) : HostRun :=
  { h with
    issued := h.issued ++ [cw]
    vars :=
      match bind with
      | some name => (name, h.issued.length) :: h.vars.filter fun b => b.1 ≠ name
      | none => h.vars }

/-- What a host does in one cycle. -/
inductive HostAction where
  | issue (line : AsmLine)
  | wait
deriving DecidableEq, Repr

/-- One cycle of the host: it reads the response on the port, then forms and issues its command, or waits. -/
def HostRun.act (a : HostAction) (h : HostRun) : Except ScriptError HostRun :=
  let h := h.takeRegistered
  match a with
  | .wait => h.clock Drive.idle
  | .issue line =>
    (h.form line.command).bind fun cw => (h.record line.bind cw).clock (Drive.issue cw)

/-- A run of host actions, one per cycle. -/
def runActions : List HostAction → HostRun → Except ScriptError HostRun
  | [], h => .ok h
  | a :: as, h => (h.act a).bind (runActions as)

/-- The schedule of a host that waits for each response before the next line: a wait of `N` cycles, none in the zero-latency
form (70_reset_and_hazards.md R165). -/
def waitingSchedule (n : Nat) (lines : List AsmLine) : List HostAction :=
  lines.flatMap (fun l => .issue l :: List.replicate (n - 1) .wait) ++ List.replicate (min n 1) .wait

/-- The run of a program has ended when each of its commands has its response (70_reset_and_hazards.md R169). -/
def HostRun.ended (lines : List AsmLine) (h : HostRun) : Bool := decide (h.results.length = lines.length)

/-- The final state of a program: its (STATUS, DATA) pairs in issue order and the host variables bound from them
(70_reset_and_hazards.md R169). -/
def HostRun.finalState (h : HostRun) : FinalState :=
  { responses := h.results.map fun w => (rspStatus w, rspData w), vars := h.vars.filterMap fun b => h.varOf b }

/-- The run of a program from a machine, by the waiting schedule. -/
def runProgram (lines : List AsmLine) (core : State) : Except ScriptError HostRun :=
  runActions (waitingSchedule core.stages lines) (HostRun.start core)

end Sys2Proof.Machine
end

