-- ==== Sys2Proof/Safety.lean ====
section
/-! DEFINITION. The terms in which claims about the machine are said: what is in flight, what a run owes its host, which states
a host can tell apart, and which outcomes are safe. -/

namespace Sys2Proof.Machine

/-- The response to a command (10_state.md R36). -/
def commandResponse (i : Instr) : RspWord := F (encode i)

/-- `RES` of an INSERT: `DATA[31:0]` of its response (40_insert.md R103). -/
def resOf (src ins ridx lidx : Word) : Word := rspWord32 (commandResponse (.insert src ins ridx lidx))

/-- The range of an INSERT passes validation: `RIDX ≤u LIDX ≤u 31` (40_insert.md R103). -/
def validRange (ridx lidx : Word) : Bool := decide (ridx.toNat ≤ lidx.toNat) && decide (lidx.toNat ≤ 31)

/-- The current cycle is a reset edge: `rst = 1` in the pipelined form (70_reset_and_hazards.md R160). -/
def State.resets (s : State) : Bool := s.drive.rst && !s.slots.isEmpty

/-- The cycle issues a command whose word has bits the host did not drive (93_implementation_defined.md I4). -/
def Drive.undriven (d : Drive) : Bool := d.cmdValid && d.cmdWord.isNone

/-- What the host drives in a cycle that neither resets nor leaves a command undriven. -/
def Drive.plain (d : Drive) : Bool := !d.rst && !d.undriven

/-- The responses in the pipeline, oldest first (10_state.md R39). -/
def inFlight (slots : List Slot) : List RspWord := slots.reverse.flatMap delivered

/-- The responses to the commands a list of drives issues, in issue order. -/
def owedFor (inputs : List Drive) : List RspWord :=
  inputs.flatMap fun d => if d.cmdValid then (d.cmdWord.map F).toList else []

/-- Every response the host has, will get from the pipeline, or will get for what it still drives, in order
(70_reset_and_hazards.md R166). -/
def State.account (s : State) : List RspWord := s.responses ++ inFlight s.slots ++ owedFor s.inputs

/-- Every valid slot and every response received is `F` of some command word (10_state.md R40, R44). -/
def State.Inv (s : State) : Prop :=
  (∀ slot ∈ s.slots, slot.v = true → ∃ cw, slot.w = F cw) ∧ ∀ w ∈ s.responses, ∃ cw, w = F cw

/-- Two slots a host cannot tell apart: the payload of an invalid slot cannot be seen (10_state.md R43). -/
def Slot.agrees (a b : Slot) : Prop := a.v = b.v ∧ (a.v = true → a.w = b.w)

/-- Two states a host cannot tell apart: they differ at most in the payloads of invalid slots and in the model's free values. -/
def State.agrees (s t : State) : Prop :=
  List.Forall₂ Slot.agrees s.slots t.slots ∧ s.inputs = t.inputs ∧ s.responses = t.responses

/-! ### Host programs, said without a host (30_encoding.md R85, R86) -/

/-- Line `j` is the latest of the lines before line `k` that binds `name` (log entry 18 for a name bound twice). -/
def BindsLatest (lines : List AsmLine) (name : Text) (k j : Nat) : Prop :=
  j < k ∧ (∃ line : AsmLine, lines[j]? = some line ∧ line.bind = some name) ∧
    ∀ (i : Nat) (line : AsmLine), j < i → i < k → lines[i]? = some line → line.bind ≠ some name

/-- The value of the variable bound to a command: the `RES` of an INSERT that passes validation, the string of a TOBIN, and none
for an error (30_encoding.md R79, R86; log entry 11). -/
def hostResult (cw : CmdWord) : Option HostValue :=
  match decode cw with
  | .insert src ins ridx lidx =>
    if validRange ridx lidx = true then some (.word (resOf src ins ridx lidx)) else none
  | .tobin val => some (.string (binaryString val))

/-- `$name` in line `k` stands for the 32-bit value `v`, `words` being the command words of the lines before it. -/
def NameStandsFor (lines : List AsmLine) (words : List CmdWord) (k : Nat) (name : Text) (v : Word) : Prop :=
  ∃ j cw, BindsLatest lines name k j ∧ words[j]? = some cw ∧ hostResult cw = some (.word v)

/-- A 32-bit operand of line `k` stands for `v` (30_encoding.md R86). -/
def Arg32.StandsFor (lines : List AsmLine) (words : List CmdWord) (k : Nat) : Arg32 → Word → Prop
  | .lit w, v => v = w
  | .var name, v => NameStandsFor lines words k name v

/-- A `<val>` operand of line `k` stands for `v`: `$hi:$lo` is `{$hi[31:0], $lo[31:0]}` (30_encoding.md R86), and a 32-bit value
alone is zero-extended (log entry 11). -/
def Arg64.StandsFor (lines : List AsmLine) (words : List CmdWord) (k : Nat) : Arg64 → DWord → Prop
  | .lit w, v => v = w
  | .var name, v => ∃ x, NameStandsFor lines words k name x ∧ v = x.setWidth 64
  | .pair hi lo, v => ∃ x y, NameStandsFor lines words k hi x ∧ NameStandsFor lines words k lo y ∧ v = x ++ y

/-- The command of line `k`, its operands replaced by what they stand for, is the command word `cw` (30_encoding.md R84 to R86). -/
def AsmCommand.Forms (lines : List AsmLine) (words : List CmdWord) (k : Nat) (c : AsmCommand) (cw : CmdWord) : Prop :=
  match c with
  | .insert src ins right left => ∃ s i r l, src.StandsFor lines words k s ∧ ins.StandsFor lines words k i ∧
      right.StandsFor lines words k r ∧ left.StandsFor lines words k l ∧ cw = encode (.insert s i r l)
  | .tobin val => ∃ v, val.StandsFor lines words k v ∧ cw = encode (.tobin v)
  | .setbit src n => ∃ s b, src.StandsFor lines words k s ∧ n.StandsFor lines words k b ∧ cw = encode (.insert s 1#32 b b)
  | .clrbit src n => ∃ s b, src.StandsFor lines words k s ∧ n.StandsFor lines words k b ∧ cw = encode (.insert s 0#32 b b)
  | .clrrange src right left => ∃ s r l, src.StandsFor lines words k s ∧ right.StandsFor lines words k r ∧
      left.StandsFor lines words k l ∧ cw = encode (.insert s 0#32 r l)
  | .movw ins => ∃ i, ins.StandsFor lines words k i ∧ cw = encode (.insert 0#32 i 0#32 31#32)
  | .cw word => cw = word

/-- `words` are the command words of the lines of a program, in order (30_encoding.md R86). -/
def ProgramForms (lines : List AsmLine) (words : List CmdWord) : Prop :=
  words.length = lines.length ∧
    ∀ (k : Nat) (line : AsmLine) (cw : CmdWord), lines[k]? = some line → words[k]? = some cw → line.command.Forms lines words k cw

/-- The number that decimal digits stand for, the most significant first (30_encoding.md R83). -/
def decimalValue (digits : Text) : Nat := digits.foldl (fun n c => 10 * n + (c.toNat - 48)) 0

/-- The magnitude of a finite binary64 pattern without its sign (93_implementation_defined.md G3): the fraction, with its leading
one when the exponent field is not 0, scaled by the exponent. -/
def binary64Magnitude (pattern : Nat) : ℚ :=
  let exponent : Nat := pattern / 2 ^ 52
  let fraction : Nat := pattern % 2 ^ 52
  (if exponent = 0 then 2 * (fraction : ℚ) else (2 ^ 52 + fraction) * 2 ^ exponent) / 2 ^ 1075

/-- A safe outcome: the machine goes on. The CORE has no fault state, stuck state or refusal of its own (10_state.md R44); only a
command whose word the host left undriven stops the model. -/
def safeOutcome : Host.Outcome State Fault Refusal → Bool
  | .next _ => true
  | .fault _ => false
  | .refused _ => false

end Sys2Proof.Machine
end

