-- ==== Sys2Proof/Certificates/Slice0/Obligations.lean ====
section
/-! DEFINITION. The statements for the provers, each from a numbered rule of the spec. -/

open Sys2Proof Sys2Proof.Machine

/-! ### Encoding (30_encoding.md) -/

/-- Words written out from the spec's layouts (95_test_vectors.md V1, T17, T16) decode to the commands they stand for. -/
def Obligations.SpecWordsDecodeToTheirCommands : Prop :=
  decode 0x0_00000008_00000003_0000028F_00000AA8#129 = .insert 2728#32 655#32 3#32 8#32 ∧
    decode 0x1_00000000_00000000_C06FE828_F5C28F5C#129 = .tobin 0xC06FE828F5C28F5C#64 ∧
    decode 0x1_DEADBEEF_CAFEF00D_3FF00000_00000000#129 = .tobin 0x3FF0000000000000#64

/-- R73: `OP = 0` selects INSERT, `OP = 1` selects TOBIN, and there is no other command. -/
def Obligations.OpcodeBitSelectsTheCommand : Prop :=
  ∀ cw : CmdWord,
    (cw.getLsbD 128 = false ↔ ∃ src ins ridx lidx, decode cw = .insert src ins ridx lidx) ∧
      (cw.getLsbD 128 = true ↔ ∃ val, decode cw = .tobin val)

/-- R71, R72: every operand field stands at its bits, and the ignored bits of a TOBIN never reach the response. -/
def Obligations.FieldsStandAtTheirBits : Prop :=
  (∀ (cw : CmdWord) (src ins ridx lidx : Word), decode cw = .insert src ins ridx lidx →
      cw.getLsbD 128 = false ∧ ∀ k < 32, src.getLsbD k = cw.getLsbD k ∧ ins.getLsbD k = cw.getLsbD (k + 32) ∧
        ridx.getLsbD k = cw.getLsbD (k + 64) ∧ lidx.getLsbD k = cw.getLsbD (k + 96)) ∧
    (∀ (cw : CmdWord) (val : DWord), decode cw = .tobin val →
      cw.getLsbD 128 = true ∧ ∀ k < 64, val.getLsbD k = cw.getLsbD k) ∧
    ∀ cw cw' : CmdWord, cw.getLsbD 128 = true → cw'.getLsbD 128 = true →
      (∀ k < 64, cw.getLsbD k = cw'.getLsbD k) → decode cw = decode cw' ∧ F cw = F cw'

/-- Decode and encode agree, in both directions; the only bits an encoding does not give back are a TOBIN's ignored ones, which
become zero (R71, R72, R84, R87). -/
def Obligations.DecodingAndEncodingAgree : Prop :=
  (∀ i : Instr, i.wellFormed = true → decode (encode i) = i) ∧
    (∀ cw : CmdWord, cw.getLsbD 128 = false → encode (decode cw) = cw) ∧
    ∀ cw : CmdWord, cw.getLsbD 128 = true →
      ∀ k : Nat, (encode (decode cw)).getLsbD k = (cw.getLsbD k && (decide (k < 64) || decide (k = 128)))

/-! ### INSERT (40_insert.md) -/

/-- R102, R79: the checks run in order and the first that fails decides; the response is that error's code with DATA zero. -/
def Obligations.InsertValidationRaisesTheFirstError : Prop :=
  ∀ (src ins ridx lidx : Word) (s : State),
    (ridx.toNat > lidx.toNat →
        exec (.insert src ins ridx lidx) s = .next (issueCycle (0b01#2 ++ 0#512) s)) ∧
      (ridx.toNat ≤ lidx.toNat → ridx.toNat > 31 →
        exec (.insert src ins ridx lidx) s = .next (issueCycle (0b10#2 ++ 0#512) s)) ∧
      (ridx.toNat ≤ 31 → lidx.toNat > 31 →
        exec (.insert src ins ridx lidx) s = .next (issueCycle (0b11#2 ++ 0#512) s))

/-- R103, R78: for a range that passes validation INSERT completes, with STATUS `OK`, `RES` in `DATA[31:0]` and zeros above. -/
def Obligations.InsertComputesItsResult : Prop :=
  ∀ (src ins ridx lidx : Word) (s : State), ridx.toNat ≤ lidx.toNat → lidx.toNat ≤ 31 →
    let r := ridx.toNat
    let l := lidx.toNat
    let wm := BitVec.ofNat 32 (2 ^ (l - r + 1) - 1)
    let keep := ~~~(wm <<< r)
    ∃ rw : RspWord, exec (.insert src ins ridx lidx) s = .next (issueCycle rw s) ∧
      rw.extractLsb' 512 2 = 0b00#2 ∧ rw.extractLsb' 32 480 = 0#480 ∧
      rw.extractLsb' 0 32 = ((src &&& keep) ||| ((ins &&& wm) <<< r))

/-- R105, R112: which of the four codes an INSERT reports, exactly. No value of SRC or INS causes an error, and no index is
reduced before it is compared. -/
def Obligations.InsertStatusIsExact : Prop :=
  ∀ src ins ridx lidx : Word,
    let e := rspStatus (commandResponse (.insert src ins ridx lidx))
    (e = .eOrder ↔ ridx.toNat > lidx.toNat) ∧
      (e = .eRightOor ↔ ridx.toNat ≤ lidx.toNat ∧ ridx.toNat > 31) ∧
      (e = .eLeftOor ↔ ridx.toNat ≤ 31 ∧ lidx.toNat > 31) ∧
      (e = .ok ↔ ridx.toNat ≤ lidx.toNat ∧ lidx.toNat ≤ 31)

/-- R107: the bits of the result inside the range are the low bits of INS, the others those of SRC. -/
def Obligations.InsertBitLaw : Prop :=
  ∀ src ins ridx lidx : Word, validRange ridx lidx = true → ∀ k < 32,
    (resOf src ins ridx lidx).getLsbD k =
      if ridx.toNat ≤ k ∧ k ≤ lidx.toNat then ins.getLsbD (k - ridx.toNat) else src.getLsbD k

/-- R108: bits of INS at or above the width of the range change nothing and cause no error. -/
def Obligations.InsertIgnoresBitsAboveTheWidth : Prop :=
  ∀ src ins ins' ridx lidx : Word, validRange ridx lidx = true →
    (∀ k < lidx.toNat - ridx.toNat + 1, ins.getLsbD k = ins'.getLsbD k) →
    commandResponse (.insert src ins ridx lidx) = commandResponse (.insert src ins' ridx lidx) ∧
      rspStatus (commandResponse (.insert src ins ridx lidx)) = .ok

/-- R109: over the full range the result is INS; the width mask is all ones and nothing is kept. -/
def Obligations.InsertFullRangeIsIns : Prop :=
  ones 32 = 0xFFFFFFFF#32 ∧ preservationMask 0 31 = 0#32 ∧
    ∀ src ins : Word, resOf src ins 0#32 31#32 = ins ∧ rspStatus (commandResponse (.insert src ins 0#32 31#32)) = .ok

/-- R110: a range that reaches the sign bit takes it from INS, keeps the bits below, and propagates no sign. -/
def Obligations.InsertSignBitLaw : Prop :=
  ∀ src ins ridx : Word, ridx.toNat ≤ 31 →
    let res := resOf src ins ridx 31#32
    res.getLsbD 31 = ins.getLsbD (31 - ridx.toNat) ∧
      (∀ k < ridx.toNat, res.getLsbD k = src.getLsbD k) ∧
      ∀ k, ridx.toNat ≤ k → k < 32 → res.getLsbD k = ins.getLsbD (k - ridx.toNat)

/-- R111: a range of one bit replaces that bit by `INS[0]` and keeps the others. -/
def Obligations.InsertWidthOneLaw : Prop :=
  ∀ src ins n : Word, n.toNat ≤ 31 → ∀ k < 32,
    (resOf src ins n n).getLsbD k = if k = n.toNat then ins.getLsbD 0 else src.getLsbD k

/-- R114: re-inserting a range's own bits changes nothing, the last insertion wins, disjoint ranges commute. -/
def Obligations.InsertAlgebra : Prop :=
  (∀ src ridx lidx : Word, validRange ridx lidx = true →
      resOf src ((src >>> ridx.toNat) &&& ones (lidx.toNat - ridx.toNat + 1)) ridx lidx = src) ∧
    (∀ src a b ridx lidx : Word, validRange ridx lidx = true →
      resOf (resOf src a ridx lidx) b ridx lidx = resOf src b ridx lidx) ∧
    ∀ src a b r₁ l₁ r₂ l₂ : Word, validRange r₁ l₁ = true → validRange r₂ l₂ = true → l₁.toNat < r₂.toNat →
      resOf (resOf src a r₁ l₁) b r₂ l₂ = resOf (resOf src b r₂ l₂) a r₁ l₁

/-- 93_implementation_defined.md I1, D12: the code an INSERT reports belongs to a condition that is broken, and it reports none
exactly when no condition is; the codes a draw could report are exactly those of the broken conditions. -/
def Obligations.InsertErrorIsAnApplicableOne : Prop :=
  ∀ src ins ridx lidx : Word,
    let e := rspStatus (commandResponse (.insert src ins ridx lidx))
    (e = .eOrder → ridx.toNat > lidx.toNat) ∧ (e = .eRightOor → ridx.toNat > 31) ∧ (e = .eLeftOor → lidx.toNat > 31) ∧
      (e = .ok ↔ ¬ridx.toNat > lidx.toNat ∧ ¬ridx.toNat > 31 ∧ ¬lidx.toNat > 31) ∧
      (∀ x, x ∈ applicableErrors ridx lidx ↔ (x = .eOrder ∧ ridx.toNat > lidx.toNat) ∨
        (x = .eRightOor ∧ ridx.toNat > 31) ∨ (x = .eLeftOor ∧ lidx.toNat > 31)) ∧
      (e = .ok ↔ applicableErrors ridx lidx = []) ∧ (e ≠ .ok → e ∈ applicableErrors ridx lidx)

/-! ### TOBIN (41_tobin.md) -/

/-- R122, R80: TOBIN completes in every state for every pattern, with STATUS `OK` and the code of bit `63 - i` in byte `i`. -/
def Obligations.TobinWritesTheBitString : Prop :=
  ∀ (val : DWord) (s : State), ∃ rw : RspWord, exec (.tobin val) s = .next (issueCycle rw s) ∧
    rw.extractLsb' 512 2 = 0b00#2 ∧
    ∀ i < 64, rw.extractLsb' (8 * i) 8 = if val.getLsbD (63 - i) then 0x31#8 else 0x30#8

/-- R127: the string parses back to the pattern, and the patterns are in bijection with the DATA values of 64 character codes. -/
def Obligations.TobinRoundTrip : Prop :=
  (∀ val : DWord, parseBinary (rspString (commandResponse (.tobin val))) = val.toNat) ∧
    (∀ val val' : DWord,
      rspData (commandResponse (.tobin val)) = rspData (commandResponse (.tobin val')) → val = val') ∧
    ∀ data : RspData, (∀ i < 64, dataByte data i = 0x30#8 ∨ dataByte data i = 0x31#8) ↔
      ∃ val : DWord, rspData (commandResponse (.tobin val)) = data

/-- R126: the string always has exactly 64 characters, each `'0'` or `'1'`, and a host reads all of them from DATA. -/
def Obligations.TobinStringHasSixtyFourCharacters : Prop :=
  ∀ val : DWord, rspString (commandResponse (.tobin val)) = binaryString val ∧ (binaryString val).length = 64 ∧
    ∀ c ∈ binaryString val, c = '0' ∨ c = '1'

/-- R128: the strings of +0.0, -0.0 and `double.MaxValue`. -/
def Obligations.TobinKnownStrings : Prop :=
  rspString (commandResponse (.tobin 0#64)) = List.replicate 64 '0' ∧
    rspString (commandResponse (.tobin 0x8000000000000000#64)) = '1' :: List.replicate 63 '0' ∧
    rspString (commandResponse (.tobin 0x7FEFFFFFFFFFFFFF#64)) =
      "0111111111101111111111111111111111111111111111111111111111111111".toList

/-- R124: no TOBIN word, whatever its ignored bits, is answered by an error. -/
def Obligations.TobinNeverFails : Prop :=
  ∀ cw : CmdWord, cw.getLsbD 128 = true → rspStatus (F cw) = .ok

/-- R129: `STR[0]` is the sign, `STR[1..11]` the exponent and `STR[12..63]` the fraction, each most significant bit first. -/
def Obligations.TobinFieldView : Prop :=
  ∀ val : DWord,
    (binaryString val)[0]? = some (bitChar (signField val)) ∧
      (∀ j < 11, (binaryString val)[1 + j]? = some (bitChar ((exponentField val).getLsbD (10 - j)))) ∧
      ∀ j < 52, (binaryString val)[12 + j]? = some (bitChar ((fractionField val).getLsbD (51 - j)))

/-! ### Responses and errors (10_state.md, 30_encoding.md, 60_exceptions.md) -/

/-- R36: a response depends on the command word alone, whatever state the command is issued in. -/
def Obligations.ResponseDependsOnlyOnTheCommandWord : Prop :=
  ∀ (cw : CmdWord) (s s' : State),
    exec (decode cw) s = .next (issueCycle (F cw) s) ∧ exec (decode cw) s' = .next (issueCycle (F cw) s')

/-- R79: the DATA of every error response is zero; and only an INSERT is answered by one. -/
def Obligations.ErrorResponsesCarryNoResult : Prop :=
  ∀ cw : CmdWord, rspStatus (F cw) ≠ .ok →
    rspData (F cw) = 0#512 ∧ ∃ src ins ridx lidx, decode cw = .insert src ins ridx lidx

/-! ### The ports and the pipeline (10_state.md R38, R39, R42) -/

/-- R38: the zero-latency form is combinational, and a command issued in a cycle is answered in that cycle. -/
def Obligations.ZeroLatencyAnswersInTheSameCycle : Prop :=
  ∀ s : State, s.slots = [] →
    s.rspValid = s.drive.cmdValid ∧
      (∀ cw, s.drive.cmdWord = some cw → s.rspWire = F cw) ∧
      ∀ cw, s.drive.cmdValid = true → s.drive.cmdWord = some cw →
        s.rspWord = F cw ∧ ∃ t, step s = .next t ∧ t.responses = s.responses ++ [F cw] ∧ t.slots = []

/-- R39: at an edge with `rst = 0` every slot is updated together, and the port shows the last slot. -/
def Obligations.PipelineEdgeMovesEverySlot : Prop :=
  ∀ (s : State) (v : Bool) (cw : CmdWord) (hs : s.slots ≠ []),
    s.drive = { rst := false, cmdValid := v, cmdWord := some cw } →
    s.rspValid = (s.slots.getLast hs).v ∧ s.rspWire = (s.slots.getLast hs).w ∧
      ∃ t, step s = .next t ∧ t.slots.length = s.slots.length ∧ t.slots[0]? = some { v := v, w := F cw } ∧
        ∀ k, k + 1 < s.slots.length → t.slots[k + 1]? = s.slots[k]?

/-- R42, the model's choice of log entry 3: in a cycle with `rsp_valid = 0` a host reads a free value. -/
def Obligations.InvalidPortReadsAFreeValue : Prop :=
  ∀ s : State, s.rspValid = false → s.rspWord = Config.freeRspWord s.freeTick

/-- Log entry 7 and R166: a step that goes on consumes one cycle of what the host drives and records exactly the valid response on
the port; the depth of the pipeline never changes. -/
def Obligations.StepRecordsTheValidPort : Prop :=
  ∀ s t : State, step s = .next t →
    t.inputs = s.inputs.tail ∧ t.stages = s.stages ∧
      t.responses = s.responses ++ (if s.rspValid then [s.rspWord] else [])

/-- R38, R39, R60: a command completes in every state, and its whole response enters the machine at once: it is delivered in the
zero-latency form and stands valid in `S[1]` in the pipelined form. -/
def Obligations.CommandResponseEntersTheMachine : Prop :=
  ∀ (i : Instr) (s : State), ∃ t, exec i s = .next t ∧
    (s.slots = [] → t.slots = [] ∧ t.responses = s.responses ++ [commandResponse i]) ∧
    (s.slots ≠ [] → t.slots[0]? = some { v := true, w := commandResponse i })

/-- What INSERT and TOBIN leave unchanged (R61, R140): what the host drives next, the number of slots, every response already
received, and the contents of every slot, which moves up by one; the only new content is in `S[1]`. That `freeTick` advances is
the model's own (log entry 2): no rule names that field. -/
def Obligations.CommandFrame : Prop :=
  ∀ (i : Instr) (s t : State), exec i s = .next t →
    t.inputs = s.inputs ∧ t.stages = s.stages ∧ t.freeTick = s.freeTick + 1 ∧
      (∀ k, k + 1 < s.stages → t.slots[k + 1]? = s.slots[k]?) ∧
      (∀ k, k < s.responses.length → t.responses[k]? = s.responses[k]?) ∧
      (∀ h : s.slots ≠ [], t.responses = s.responses ++ delivered (s.slots.getLast h))

/-- R167, R168: the response to a command appears exactly `PIPELINE_STAGES` cycles after its issue, for every command, if the host
drives neither a reset nor an undriven command in the cycles between. Where `rest` is shorter than that, the idle cycles after it
are the model's choice of log entry 6; and the cycle of the response may itself be a reset cycle: that the response still stands
valid on the port there is the model's reading of log entry 7. -/
def Obligations.LatencyIsTheNumberOfStages : Prop :=
  ∀ (s : State) (cw : CmdWord) (rest : List Drive), s.inputs = Drive.issue cw :: rest →
    (∀ d ∈ rest.take (s.stages - 1), d.plain = true) →
    ∃ t : State, Sys2Proof.core.run s.stages s = .next t ∧ t.rspValid = true ∧ t.rspWord = F cw

/-! ### Reset (10_state.md R43, 70_reset_and_hazards.md) -/

/-- R43: after reset every slot is invalid, and so is the port of the pipelined form whatever the host drives. -/
def Obligations.ResetClearsEveryValidBit : Prop :=
  ∀ n : Nat, (State.resetWith n).stages = n ∧ (∀ x ∈ (State.resetWith n).slots, x.v = false) ∧
    (State.resetWith n).responses = [] ∧
    (∀ inputs, n > 0 → ({ State.resetWith n with inputs := inputs } : State).rspValid = false) ∧
    State.reset = State.resetWith 0

/-- R160: a reset edge clears every valid bit, and the command presented with it has no effect at all; in the zero-latency form
`rst` has no effect. That an undriven command is dropped there too, and not refused, is the model's choice of log entry 12; that
the cleared payloads, which R160 leaves at any value, do not depend on what is driven is the model's choice of log entry 2. -/
def Obligations.ResetEdgeDropsTheCommand : Prop :=
  (∀ (s : State) (d : Drive) (rest : List Drive), s.slots ≠ [] → d.rst = true →
      ∃ t, step { s with inputs := d :: rest } = .next t ∧ t.stages = s.stages ∧ (∀ x ∈ t.slots, x.v = false) ∧
        t.inputs = rest ∧ ∀ d' : Drive, d'.rst = true → step { s with inputs := d' :: rest } = .next t) ∧
    ∀ (s : State) (d : Drive) (rest : List Drive), s.slots = [] →
      step { s with inputs := d :: rest } = step { s with inputs := { d with rst := false } :: rest }

/-- R161, and log entry 7 for the cycle of the edge itself: what is in flight at a reset edge gets no response; the host has what it
received up to and in that cycle, and is owed only what it drives from then on. -/
def Obligations.ResetEdgeLosesWhatIsInFlight : Prop :=
  ∀ s t : State, s.resets = true → step s = .next t →
    inFlight t.slots = [] ∧
      t.account = s.responses ++ (if s.rspValid then [s.rspWord] else []) ++ owedFor s.inputs.tail

/-! ### Steps and runs -/

/-- R31, R44, R73: a step runs the instruction the word on the port decodes to, at the state whose input ports stand past this
cycle. The second clause is about the model's own devices `decodeTableWord` and `withFetchWord` (log entries 1 and 15). -/
def Obligations.StepRunsTheDecodedCommand : Prop :=
  (∀ (s : State) (d : Drive) (cw : CmdWord) (rest : List Drive), s.inputs = d :: rest → d.cmdValid = true →
      d.cmdWord = some cw → (d.rst = false ∨ s.slots = []) →
      step s = exec (decode cw) { s with inputs := rest }) ∧
    ∀ (s : State) (nbits w : Nat) (i : Instr), decodeTableWord nbits w = some i →
      step (s.withFetchWord nbits w) = exec i s

/-- R44, I4: the CORE never faults; a step is refused exactly when the host issues a command whose word it does not drive. That a
reset edge, which drops the command (R160), is not refused even so is the model's choice of log entry 12. -/
def Obligations.StepStopsOnlyOnAnUndrivenCommand : Prop :=
  ∀ s : State,
    (s.resets = false ∧ s.drive.cmdValid = true ∧ s.drive.cmdWord = none → step s = .refused .undrivenCommandWord) ∧
      (¬(s.resets = false ∧ s.drive.cmdValid = true ∧ s.drive.cmdWord = none) → ∃ t, step s = .next t)

/-- The invariant of R40 and R44 holds right after reset, at every depth. -/
def Obligations.ResetHoldsOnlyResponses : Prop := State.reset.Inv ∧ ∀ n, (State.resetWith n).Inv

/-- R40: every step keeps the invariant that the valid payloads and the responses received are `F` of command words. -/
def Obligations.EveryStepKeepsResponsesGenuine : Prop :=
  ∀ s t : State, s.Inv → step s = .next t → t.Inv

/-- R166: a step that is no reset edge keeps the account of responses: none is lost, reordered, merged or duplicated. -/
def Obligations.EveryStepKeepsTheAccount : Prop :=
  ∀ s t : State, s.resets = false → step s = .next t → t.account = s.account

/-- R44, R166: from every state, a host that drives without reset receives what was in flight and then `F` of each command it
issues, in issue order, once the pipeline has drained. The last `PIPELINE_STAGES` cycles are past the inputs: that they are idle is
the model's choice of log entry 6. -/
def Obligations.RunAnswersEveryCommandInOrder : Prop :=
  ∀ s : State, (∀ d ∈ s.inputs, d.plain = true) →
    ∃ t : State, Sys2Proof.core.run (s.inputs.length + s.stages) s = .next t ∧
      t.responses = s.responses ++ inFlight s.slots ++ owedFor s.inputs ∧ t.inputs = [] ∧ inFlight t.slots = []

/-- R9, R36: machines of any two depths give the same responses to the same commands. The runs end with idle cycles past the
inputs, the model's choice of log entry 6. -/
def Obligations.EveryDepthGivesTheSameResponses : Prop :=
  ∀ (n m : Nat) (inputs : List Drive), (∀ d ∈ inputs, d.plain = true) →
    ∃ t u : State, Sys2Proof.core.run (inputs.length + n) { State.resetWith n with inputs := inputs } = .next t ∧
      Sys2Proof.core.run (inputs.length + m) { State.resetWith m with inputs := inputs } = .next u ∧
      t.responses = u.responses ∧ t.responses = owedFor inputs

/-- R62: reordering the commands of a stream reorders their responses and changes none of them. The runs end with idle cycles past
the inputs, the model's choice of log entry 6. -/
def Obligations.OrderOfCommandsChangesNoResponse : Prop :=
  ∀ (n : Nat) (cws cws' : List CmdWord), cws.Perm cws' →
    ∃ t u : State,
      Sys2Proof.core.run (cws.length + n) { State.resetWith n with inputs := cws.map Drive.issue } = .next t ∧
      Sys2Proof.core.run (cws'.length + n) { State.resetWith n with inputs := cws'.map Drive.issue } = .next u ∧
      t.responses = cws.map F ∧ u.responses = cws'.map F ∧ t.responses.Perm u.responses

/-- R43, R42: nothing a host can see depends on the payload of an invalid slot or on any free value of the machine. -/
def Obligations.InvalidPayloadsAreNeverSeen : Prop :=
  ∀ s s' t : State, s.agrees s' → step s = .next t → ∃ t', step s' = .next t' ∧ t.agrees t'

/-! ### The bus (20_memory.md R58) -/

/-- R58: byte `j` at offset `j` holds the bits `[8j+7:8j]`, with `big` the offsets are reversed, and with `little` the DATA of a
TOBIN lies at offsets 0 to 63 in string order. -/
def Obligations.BusBytesHoldTheWords : Prop :=
  (∀ (cw : CmdWord) (j k : Nat), k < 8 → 8 * j + k < 129 →
      ((cmdBusBytes .little cw).getD j 0#8).getLsbD k = cw.getLsbD (8 * j + k)) ∧
    (∀ (rw : RspWord) (j k : Nat), k < 8 → 8 * j + k < 514 →
      ((rspBusBytes .little rw).getD j 0#8).getLsbD k = rw.getLsbD (8 * j + k)) ∧
    (∀ cw, cmdBusBytes .big cw = (cmdBusBytes .little cw).reverse ∧ (cmdBusBytes .little cw).length = 17) ∧
    (∀ rw, rspBusBytes .big rw = (rspBusBytes .little rw).reverse ∧ (rspBusBytes .little rw).length = 65) ∧
    ∀ val, dataBusBytes .little (rspData (commandResponse (.tobin val))) = (binaryString val).map charCode

/-- The model's reading of a bus (log entry 5): in either order the bytes of a word give the word back, whatever the bits beyond
it are. -/
def Obligations.BusCarriesTheWordsBack : Prop :=
  (∀ order cw, cmdOfBusBytes order (cmdBusBytes order cw) = cw) ∧
    ∀ order rw, rspOfBusBytes order (rspBusBytes order rw) = rw

/-! ### Notation (30_encoding.md R83 to R87) -/

/-- R84: the command words of the two commands, bit by bit. -/
def Obligations.CommandLinesEncode : Prop :=
  (∀ (s i r l : Word), (AsmCommand.insert (.lit s) (.lit i) (.lit r) (.lit l)).literalWord =
      some ((0#1 ++ l ++ r ++ i ++ s : BitVec 129))) ∧
    ∀ v : DWord, (AsmCommand.tobin (.lit v)).literalWord = some ((1#1 ++ 0#64 ++ v : BitVec 129))

/-- R85: what each pseudo-instruction does. -/
def Obligations.PseudoInstructionsDoWhatTheySay : Prop :=
  (∀ s n : Word, ∃ cw, (AsmCommand.setbit (.lit s) (.lit n)).literalWord = some cw ∧
      (n.toNat ≤ 31 → rspStatus (F cw) = .ok ∧
        ∀ k < 32, (rspWord32 (F cw)).getLsbD k = if k = n.toNat then true else s.getLsbD k) ∧
      (n.toNat > 31 → rspStatus (F cw) = .eRightOor)) ∧
    (∀ s n : Word, ∃ cw, (AsmCommand.clrbit (.lit s) (.lit n)).literalWord = some cw ∧
      (n.toNat ≤ 31 → rspStatus (F cw) = .ok ∧
        ∀ k < 32, (rspWord32 (F cw)).getLsbD k = if k = n.toNat then false else s.getLsbD k) ∧
      (n.toNat > 31 → rspStatus (F cw) = .eRightOor)) ∧
    (∀ s r l : Word, ∃ cw, (AsmCommand.clrrange (.lit s) (.lit r) (.lit l)).literalWord = some cw ∧
      (validRange r l = true → rspStatus (F cw) = .ok ∧
        ∀ k < 32, (rspWord32 (F cw)).getLsbD k = if r.toNat ≤ k ∧ k ≤ l.toNat then false else s.getLsbD k)) ∧
    (∀ i : Word, ∃ cw, (AsmCommand.movw (.lit i)).literalWord = some cw ∧ rspStatus (F cw) = .ok ∧ rspWord32 (F cw) = i) ∧
    ∀ cw : CmdWord, (AsmCommand.cw cw).literalWord = some cw

/-- R13: the vector a decimal stands for in a data field, and the decimals that fit none. -/
def Obligations.DecimalLiteralsStandForTheirVectors : Prop :=
  ∀ i : Int,
    (-2 ^ 31 ≤ i ∧ i < 2 ^ 31 → ∃ v, wordOfInt i = .ok v ∧ v.toInt = i) ∧
      (2 ^ 31 ≤ i ∧ i < 2 ^ 32 → ∃ v, wordOfInt i = .ok v ∧ (v.toNat : Int) = i) ∧
      (i < -2 ^ 31 ∨ 2 ^ 32 ≤ i → wordOfInt i = .error .literalDoesNotFit)

/-- R83: a floating literal of value `±digits · 10^e` is converted to its sign and the nearest binary64 magnitude, ties to even: no
finite pattern is nearer, and of two that are equally near the even one is taken. That a literal nearer to `2^1024` than to every
finite value is rejected is the model's choice of log entry 9. -/
def Obligations.FloatingLiteralsRoundToNearestEven : Prop :=
  (∀ n d : Nat, 0 < d → nearestBinary64 n d < 0x7FF0000000000000 → ∀ q < 0x7FF0000000000000,
    |(n : ℚ) / d - binary64Magnitude (nearestBinary64 n d)| ≤ |(n : ℚ) / d - binary64Magnitude q| ∧
      (|(n : ℚ) / d - binary64Magnitude (nearestBinary64 n d)| = |(n : ℚ) / d - binary64Magnitude q| →
        nearestBinary64 n d = q ∨ nearestBinary64 n d % 2 = 0)) ∧
    ∀ (negative : Bool) (digits : Nat) (e : Int),
      let x : ℚ := digits * (10 : ℚ) ^ e
      (2 ^ 1024 - 2 ^ 970 ≤ x → doubleOfDecimal negative digits e = .error .literalDoesNotFit) ∧
        (x < 2 ^ 1024 - 2 ^ 970 → ∃ v, doubleOfDecimal negative digits e = .ok v ∧ v.getLsbD 63 = negative ∧
          let m := (v.extractLsb' 0 63).toNat
          m < 0x7FF0000000000000 ∧ ∀ q < 0x7FF0000000000000,
            |x - binary64Magnitude m| ≤ |x - binary64Magnitude q| ∧
              (|x - binary64Magnitude m| = |x - binary64Magnitude q| → m = q ∨ m % 2 = 0))

/-- R83, in the spelling of log entry 9: which sign, digits and power of ten the text of a floating literal stands for; and `-0.0`
gives `0x8000000000000000`. -/
def Obligations.FloatingLiteralTextsStandForTheirDecimals : Prop :=
  (∀ (sign whole frac mark expSign exponent : Text) (negative : Bool) (s : Int),
    (sign, negative) ∈ [([], false), (['+'], false), (['-'], true)] → mark ∈ [['e'], ['E']] →
    (expSign, s) ∈ [([], 1), (['+'], 1), (['-'], -1)] → whole ≠ [] → exponent ≠ [] →
    (∀ c ∈ whole ++ frac ++ exponent, '0' ≤ c ∧ c ≤ '9') →
      parseValLit (sign ++ whole ++ ['.'] ++ frac) =
          doubleOfDecimal negative (decimalValue (whole ++ frac)) (-(frac.length : Int)) ∧
        parseValLit (sign ++ whole ++ mark ++ expSign ++ exponent) =
          doubleOfDecimal negative (decimalValue whole) (s * decimalValue exponent) ∧
        parseValLit (sign ++ whole ++ ['.'] ++ frac ++ mark ++ expSign ++ exponent) =
          doubleOfDecimal negative (decimalValue (whole ++ frac)) (s * decimalValue exponent - frac.length)) ∧
    parseValLit "-0.0".toList = .ok 0x8000000000000000#64

/-- R87: decode, print and assemble again gives back the same word, but for a TOBIN's ignored bits, which become zero; and `.cw`
of a word's 33 digits gives back every bit. -/
def Obligations.DisassemblyAssemblesBack : Prop :=
  ∀ cw : CmdWord, assembleText (disassemble cw) = some (encode (decode cw)) ∧
    assembleText (".cw ".toList ++ cwText cw) = some cw

/-! ### Host programs (70_reset_and_hazards.md R165, R169) -/

/-- R165: after a command, a host waits `N` cycles; the response is there in the `N`-th cycle and not before. -/
def Obligations.ChainingWaitsForTheStages : Prop :=
  ∀ (h h' : HostRun) (line : AsmLine) (waits : Nat), (∀ x ∈ h.core.slots, x.v = false) →
    h.results.length = h.issued.length → waits + 1 ≤ max h.core.stages 1 →
    runActions (.issue line :: List.replicate waits .wait) h = .ok h' →
    ∃ cw, h'.issued = h.issued ++ [cw] ∧
      h'.takeRegistered.results = h.results ++ (if waits + 1 = max h.core.stages 1 then [F cw] else [])

/-- R169, R166, R86: a program run by a host that waits goes through if every line stands for a command word; when it has gone
through it has ended, the words issued are those the lines stand for, each variable replaced by its value, and the `k`-th response
is `F` of the `k`-th word. What a variable stands for follows log entries 11 and 18. -/
def Obligations.HostProgramEndsWithItsResponses : Prop :=
  ∀ (lines : List AsmLine) (core : State), (∀ x ∈ core.slots, x.v = false) →
    (∀ words, ProgramForms lines words → ∃ h, runProgram lines core = .ok h ∧ h.issued = words) ∧
      ∀ h, runProgram lines core = .ok h →
        h.ended lines = true ∧ h.issued.length = lines.length ∧ ProgramForms lines h.issued ∧ h.results = h.issued.map F

/-- R169: the final state of a program is the (STATUS, DATA) pair of each command in issue order, and each host variable with its
status and its value; a name bound twice is the later binding's (log entry 18), and an error has no value (log entry 11). -/
def Obligations.HostProgramFinalState : Prop :=
  ∀ (lines : List AsmLine) (core : State) (h : HostRun), (∀ x ∈ core.slots, x.v = false) →
    runProgram lines core = .ok h →
    h.finalState.responses = h.issued.map (fun cw => (rspStatus (F cw), rspData (F cw))) ∧
      (h.finalState.vars.map HostVar.name).Nodup ∧
      ∀ var : HostVar, var ∈ h.finalState.vars ↔ ∃ j cw, BindsLatest lines var.name lines.length j ∧
        h.issued[j]? = some cw ∧ var.status = rspStatus (F cw) ∧ var.value = hostResult cw
end

