-- ==== Sys2Proof/Laws/Assembler.lean ====
section
/-! SUPPORT. What the assembler's functions over digits and numbers do (30_encoding.md R83). -/

namespace Sys2Proof.Machine

/-! ### Digits -/

/-- A decimal digit. -/
abbrev IsDigit (c : Char) : Prop := '0' ≤ c ∧ c ≤ '9'

theorem decDigit_of {c : Char} (h : IsDigit c) : decDigit c = some (c.toNat - 48) := by
  simp [decDigit, h.1, h.2]

theorem parseDigits_of {t : Text} (hne : t ≠ []) (h : ∀ c ∈ t, IsDigit c) : parseDigits 10 decDigit t = some (decimalValue t) := by
  have : ∀ (n : Nat) (t : Text), (∀ c ∈ t, IsDigit c) →
      t.foldl (fun acc c => acc.bind fun n => (decDigit c).map fun d => 10 * n + d) (some n) =
        some (t.foldl (fun n c => 10 * n + (c.toNat - 48)) n) := by
    intro n t
    induction t generalizing n with
    | nil => intro _; rfl
    | cons c t ih =>
      intro h
      rw [List.foldl_cons, List.foldl_cons, Option.bind_some, decDigit_of (h c (by simp)), Option.map_some]
      exact ih _ fun c hc => h c (by simp [hc])
  rw [parseDigits, if_neg hne]
  exact this 0 t h

theorem parseNat_of {t : Text} (hne : t ≠ []) (h : ∀ c ∈ t, IsDigit c) : parseNat t = .ok (decimalValue t) := by
  rw [parseNat, parseDigits_of hne h]

theorem parseExponent_of {sg t : Text} {s : Int} (hs : (sg, s) ∈ [(([] : Text), (1 : Int)), (['+'], 1), (['-'], -1)]) (hne : t ≠ [])
    (h : ∀ c ∈ t, IsDigit c) : parseExponent (sg ++ t) = .ok (s * decimalValue t) := by
  simp only [List.mem_cons, Prod.mk.injEq, List.not_mem_nil, or_false] at hs
  rcases hs with ⟨rfl, rfl⟩ | ⟨rfl, rfl⟩ | ⟨rfl, rfl⟩
  · cases t with
    | nil => exact absurd rfl hne
    | cons c t =>
      have hc := h c (by simp)
      unfold parseExponent
      split
      · next heq =>
        rw [List.nil_append] at heq
        injection heq with h1 _; rw [h1] at hc; exact absurd hc.1 (by decide)
      · next heq =>
        rw [List.nil_append] at heq
        injection heq with h1 _; rw [h1] at hc; exact absurd hc.1 (by decide)
      · rw [List.nil_append, parseNat_of hne h]; simp [Except.map]
  · simp [parseExponent, parseNat_of hne h, Except.map]
  · simp [parseExponent, parseNat_of hne h, Except.map]

/-- Digits are taken up to the first character that is none. -/
theorem takeWhile_of {t r : Text} (h : ∀ c ∈ t, IsDigit c) (hr : ∀ c ∈ r.head?, ¬IsDigit c) :
    (t ++ r).takeWhile (fun c => (decDigit c).isSome) = t ∧ (t ++ r).dropWhile (fun c => (decDigit c).isSome) = r := by
  have hp : ∀ c ∈ t, (fun c => (decDigit c).isSome) c = true := fun c hc => by simp [decDigit_of (h c hc)]
  rw [List.takeWhile_append_of_pos hp, List.dropWhile_append_of_pos hp]
  cases r with
  | nil => simp
  | cons c r =>
    have : decDigit c = none := by
      have := hr c (by simp)
      simpa [decDigit] using this
    simp [this]

/-! ### Rounding -/

theorem floorLog2_spec {n d : Nat} (hn : n ≠ 0) (hd : d ≠ 0) :
    (2 : ℚ) ^ floorLog2 n d ≤ (n : ℚ) / d ∧ (n : ℚ) / d < (2 : ℚ) ^ (floorLog2 n d + 1) := by
  have hdq : (0 : ℚ) < d := by positivity
  have h2 : (2 : ℚ) ≠ 0 := by norm_num
  have n1 : (2 : ℚ) ^ (n.log2 : ℤ) ≤ n := by exact_mod_cast Nat.log2_self_le hn
  have n2 : (n : ℚ) < 2 ^ ((n.log2 : ℤ) + 1) := by exact_mod_cast Nat.lt_log2_self
  have d1 : (2 : ℚ) ^ (d.log2 : ℤ) ≤ d := by exact_mod_cast Nat.log2_self_le hd
  have d2 : (d : ℚ) < 2 ^ ((d.log2 : ℤ) + 1) := by exact_mod_cast Nat.lt_log2_self
  have hreach : (if 0 ≤ (n.log2 : Int) - d.log2 then decide (d * 2 ^ ((n.log2 : Int) - d.log2).toNat ≤ n)
      else decide (d ≤ n * 2 ^ (-((n.log2 : Int) - d.log2)).toNat)) = decide ((2 : ℚ) ^ ((n.log2 : Int) - d.log2) ≤ (n : ℚ) / d) := by
    split
    · next hk =>
      rw [decide_eq_decide, le_div_iff₀ hdq]
      obtain ⟨k, hk'⟩ := Int.eq_ofNat_of_zero_le hk
      rw [hk', Int.toNat_natCast, zpow_natCast, mul_comm]
      exact_mod_cast Iff.rfl
    · next hk =>
      rw [decide_eq_decide, le_div_iff₀ hdq]
      obtain ⟨k, hk'⟩ := Int.eq_ofNat_of_zero_le (a := -((n.log2 : Int) - d.log2)) (by omega)
      rw [hk', Int.toNat_natCast, show ((n.log2 : Int) - d.log2) = -(k : ℤ) by omega, zpow_neg, zpow_natCast,
        inv_mul_le_iff₀ (by positivity), mul_comm]
      exact_mod_cast Iff.rfl
  have up : (n : ℚ) / d < 2 ^ ((n.log2 : Int) - d.log2 + 1) := by
    rw [div_lt_iff₀ hdq]
    calc (n : ℚ) < 2 ^ ((n.log2 : ℤ) + 1) := n2
      _ = 2 ^ ((n.log2 : Int) - d.log2 + 1) * 2 ^ (d.log2 : ℤ) := by rw [← zpow_add₀ h2]; congr 1; ring
      _ ≤ _ := by gcongr
  have lo : (2 : ℚ) ^ ((n.log2 : Int) - d.log2 - 1) ≤ (n : ℚ) / d := by
    rw [le_div_iff₀ hdq]
    calc (2 : ℚ) ^ ((n.log2 : Int) - d.log2 - 1) * d ≤ 2 ^ ((n.log2 : Int) - d.log2 - 1) * 2 ^ ((d.log2 : ℤ) + 1) := by gcongr
      _ = 2 ^ (n.log2 : ℤ) := by rw [← zpow_add₀ h2]; congr 1; ring
      _ ≤ _ := n1
  simp only [floorLog2, hreach, decide_eq_true_eq]
  split
  · next h => exact ⟨h, up⟩
  · next h => exact ⟨lo, by rw [sub_add_cancel]; exact not_le.1 h⟩

/-- No natural number is nearer, and a tie goes to the even one. -/
theorem roundHalfEven_spec (n : Nat) {d : Nat} (hd : d ≠ 0) (j : Nat) :
    |(n : ℚ) / d - roundHalfEven n d| ≤ |(n : ℚ) / d - j| ∧
      (|(n : ℚ) / d - roundHalfEven n d| = |(n : ℚ) / d - j| → roundHalfEven n d = j ∨ roundHalfEven n d % 2 = 0) := by
  have hdq : (0 : ℚ) < d := by positivity
  have hx : (n : ℚ) / d = (n / d : ℕ) + ((n % d : ℕ) : ℚ) / d := by
    rw [div_eq_iff hdq.ne', add_mul, div_mul_cancel₀ _ hdq.ne']
    exact_mod_cast (Nat.div_add_mod' n d).symm
  have f0 : (0 : ℚ) ≤ ((n % d : ℕ) : ℚ) / d := by positivity
  have f1 : ((n % d : ℕ) : ℚ) / d < 1 := by
    rw [div_lt_one hdq]; exact_mod_cast Nat.mod_lt n (Nat.pos_of_ne_zero hd)
  have flt : 2 * (n % d) < d ↔ 2 * (((n % d : ℕ) : ℚ) / d) < 1 := by
    rw [← mul_div_assoc, div_lt_one hdq]; exact_mod_cast Iff.rfl
  have fgt : d < 2 * (n % d) ↔ 1 < 2 * (((n % d : ℕ) : ℚ) / d) := by
    rw [← mul_div_assoc, one_lt_div hdq]; exact_mod_cast Iff.rfl
  rw [hx]
  simp only [roundHalfEven, flt, fgt]
  generalize ((n % d : ℕ) : ℚ) / d = f at *
  generalize n / d = q
  have hj : (j : ℚ) ≤ q ∨ j = q + 1 ∨ (q : ℚ) + 2 ≤ j := by
    rcases lt_trichotomy j (q + 1) with h | h | h
    · left; exact_mod_cast Nat.le_of_lt_succ h
    · right; left; exact h
    · right; right; exact_mod_cast h
  have e1 : ∀ r : ℚ, (q : ℚ) + f - r = (q - r) + f := fun r => by ring
  have hjq : (j : ℚ) = q → j = q := fun h => by exact_mod_cast h
  split
  · rw [show (q : ℚ) + f - q = f by ring, abs_of_nonneg f0]
    rcases hj with h | rfl | h
    · rw [abs_of_nonneg (by linarith)]
      exact ⟨by linarith, fun h' => .inl (hjq (by linarith)).symm⟩
    · push_cast; rw [abs_of_nonpos (by linarith)]
      exact ⟨by linarith, fun h' => by linarith⟩
    · rw [abs_of_nonpos (by linarith)]
      exact ⟨by linarith, fun h' => by linarith⟩
  · next hlt =>
    split
    · push_cast
      rw [show (q : ℚ) + f - (q + 1) = f - 1 by ring, abs_of_nonpos (by linarith)]
      rcases hj with h | rfl | h
      · rw [abs_of_nonneg (by linarith)]
        exact ⟨by linarith, fun h' => by linarith⟩
      · exact ⟨by push_cast; rw [abs_of_nonpos (by linarith)]; linarith, fun _ => .inl rfl⟩
      · rw [abs_of_nonpos (by linarith)]
        exact ⟨by linarith, fun h' => by linarith⟩
    · next hgt =>
      have hf : 2 * f = 1 := le_antisymm (not_lt.1 hgt) (not_lt.1 hlt)
      split
      · next he =>
        rw [show (q : ℚ) + f - q = f by ring, abs_of_nonneg f0]
        refine ⟨?_, fun _ => .inr he⟩
        rcases hj with h | rfl | h
        · rw [abs_of_nonneg (by linarith)]; linarith
        · push_cast; rw [abs_of_nonpos (by linarith)]; linarith
        · rw [abs_of_nonpos (by linarith)]; linarith
      · next ho =>
        push_cast
        rw [show (q : ℚ) + f - (q + 1) = f - 1 by ring, abs_of_nonpos (by linarith)]
        refine ⟨?_, fun _ => .inr (by omega)⟩
        rcases hj with h | rfl | h
        · rw [abs_of_nonneg (by linarith)]; linarith
        · push_cast; rw [abs_of_nonpos (by linarith)]; linarith
        · rw [abs_of_nonpos (by linarith)]; linarith

theorem roundHalfEven_bounds (n d : Nat) : n / d ≤ roundHalfEven n d ∧ roundHalfEven n d ≤ n / d + 1 := by
  simp only [roundHalfEven]; split_ifs <;> omega

/-- The sign and the magnitude of the pattern that `doubleOfDecimal` forms. -/
theorem pattern_fields (negative : Bool) {m : Nat} (hm : m < 2 ^ 63) :
    let v := BitVec.ofNat 64 ((if negative then 2 ^ 63 else 0) + m)
    v.getLsbD 63 = negative ∧ (v.extractLsb' 0 63).toNat = m := by
  refine ⟨?_, ?_⟩
  · rw [BitVec.getLsbD_ofNat, Nat.testBit_eq_decide_div_mod_eq]
    cases negative <;> simp <;> omega
  · simp only [BitVec.extractLsb'_toNat, BitVec.toNat_ofNat, Nat.shiftRight_zero]
    cases negative <;> simp <;> omega

end Sys2Proof.Machine
end

