-- ==== Sys2Proof/Laws/Bus.lean ====
section
/-! SUPPORT. The bytes of a value on a bus, and the value of bytes, bit by bit (20_memory.md R58). -/

namespace Sys2Proof.Machine

@[simp] theorem bytesLow_length {width : Nat} (n : Nat) (v : BitVec width) : (bytesLow n v).length = n := by simp [bytesLow]

theorem bytesLow_getLsbD {width n j k : Nat} (v : BitVec width) (hj : j < n) (hk : k < 8) :
    ((bytesLow n v).getD j 0#8).getLsbD k = v.getLsbD (8 * j + k) := by
  simp [bytesLow, List.getD_eq_getElem?_getD, hj, hk]

theorem joinBytes_getLsbD {width k : Nat} (bs : List Byte) (hk : k < width) :
    (joinBytes width bs).getLsbD k = (bs.getD (k / 8) 0#8).getLsbD (k % 8) := by
  induction bs generalizing k with
  | nil => simp [joinBytes]
  | cons b bs ih =>
    simp only [joinBytes, BitVec.getLsbD_or, BitVec.getLsbD_shiftLeft, BitVec.getLsbD_setWidth, hk]
    by_cases h8 : k < 8
    · simp [h8, Nat.div_eq_of_lt h8, Nat.mod_eq_of_lt h8]
    · have hdiv : k / 8 = (k - 8) / 8 + 1 := by omega
      have hmod : k % 8 = (k - 8) % 8 := by omega
      rw [ih (by omega), hdiv, hmod]
      simp [h8, BitVec.getLsbD_of_ge b k (by omega)]

/-- Reversing the offsets twice leaves the bytes as they were. -/
@[simp] theorem orderBytes_orderBytes (order : ByteOrder) (bytes : List Byte) : orderBytes order (orderBytes order bytes) = bytes := by
  cases order <;> simp [orderBytes]

end Sys2Proof.Machine
end

