-- ==== Sys2Proof/Laws/Decode.lean ====
section
/-! SUPPORT. The fields of a command word, bit by bit (30_encoding.md R70 to R72). -/

namespace Sys2Proof

theorem opcodeBit_eq (cw : CmdWord) : opcodeBit cw = cw.getLsbD 128 := by
  have h : cw.extractLsb' 128 1 = 1#1 ↔ cw.getLsbD 128 = true := by
    constructor
    · intro h
      have h0 := congrArg (fun v => v.getLsbD 0) h
      simpa using h0
    · intro h
      apply BitVec.eq_of_getLsbD_eq
      intro k hk
      have hk0 : k = 0 := by omega
      subst hk0
      rw [BitVec.getLsbD_extractLsb', h]
      rfl
  exact (Bool.decide_congr h).trans Bool.decide_eq_true

theorem insertSlot_getLsbD (cw : CmdWord) (slot k : Nat) :
    (insertSlot cw slot).getLsbD k = (decide (k < 32) && cw.getLsbD (32 * slot + k)) := by
  simp [insertSlot]

theorem tobinValue_getLsbD (cw : CmdWord) (k : Nat) : (tobinValue cw).getLsbD k = (decide (k < 64) && cw.getLsbD k) := by
  simp [tobinValue]

theorem decode_of_opcode_zero {cw : CmdWord} (h : opcodeBit cw = false) :
    decode cw = .insert (insertSlot cw 0) (insertSlot cw 1) (insertSlot cw 2) (insertSlot cw 3) := by
  simp [decode, h]

theorem decode_of_opcode_one {cw : CmdWord} (h : opcodeBit cw = true) : decode cw = .tobin (tobinValue cw) := by
  simp [decode, h]

/-- The bits of an encoded INSERT: four 32-bit slots and a zero opcode. -/
theorem encode_insert_getLsbD (src ins ridx lidx : Word) (k : Nat) :
    (encode (.insert src ins ridx lidx)).getLsbD k =
      if k < 32 then src.getLsbD k
      else if k < 64 then ins.getLsbD (k - 32)
      else if k < 96 then ridx.getLsbD (k - 64)
      else if k < 128 then lidx.getLsbD (k - 96)
      else false := by
  simp only [encode, BitVec.getLsbD_append]
  grind

/-- The bits of an encoded TOBIN: the pattern, 64 zeros and a one. -/
theorem encode_tobin_getLsbD (val : DWord) (k : Nat) :
    (encode (.tobin val)).getLsbD k = if k < 64 then val.getLsbD k else decide (k = 128) := by
  simp only [encode, BitVec.getLsbD_append]
  grind

@[simp] theorem opcodeBit_encode_insert (src ins ridx lidx : Word) : opcodeBit (encode (.insert src ins ridx lidx)) = false := by
  rw [opcodeBit_eq, encode_insert_getLsbD]
  rfl

@[simp] theorem opcodeBit_encode_tobin (val : DWord) : opcodeBit (encode (.tobin val)) = true := by
  rw [opcodeBit_eq, encode_tobin_getLsbD]
  rfl

end Sys2Proof
end

