-- ==== Sys2Proof/Laws/State.lean ====
section
/-! SUPPORT. One lemma per field per update of State, so that no proof unfolds a record update. -/

namespace Sys2Proof.Machine

@[simp] theorem clockCycle_slots (new : Slot) (s : State) : (clockCycle new s).slots = shiftSlots new s.slots := rfl
@[simp] theorem clockCycle_inputs (new : Slot) (s : State) : (clockCycle new s).inputs = s.inputs := rfl
@[simp] theorem clockCycle_responses (new : Slot) (s : State) :
    (clockCycle new s).responses = s.responses ++ delivered (portSlot new s.slots) := rfl
@[simp] theorem clockCycle_freeTick (new : Slot) (s : State) : (clockCycle new s).freeTick = s.freeTick + 1 := rfl

@[simp] theorem issueCycle_slots (w : RspWord) (s : State) : (issueCycle w s).slots = shiftSlots ⟨true, w⟩ s.slots := rfl
@[simp] theorem issueCycle_inputs (w : RspWord) (s : State) : (issueCycle w s).inputs = s.inputs := rfl
@[simp] theorem issueCycle_responses (w : RspWord) (s : State) :
    (issueCycle w s).responses = s.responses ++ delivered (portSlot ⟨true, w⟩ s.slots) := rfl
@[simp] theorem issueCycle_freeTick (w : RspWord) (s : State) : (issueCycle w s).freeTick = s.freeTick + 1 := rfl

@[simp] theorem resetCycle_slots (s : State) : (resetCycle s).slots = clearedSlots s.freeTick s.slots.length := rfl
@[simp] theorem resetCycle_inputs (s : State) : (resetCycle s).inputs = s.inputs := rfl
@[simp] theorem resetCycle_responses (s : State) :
    (resetCycle s).responses = s.responses ++ (s.slots.getLast?.map delivered).getD [] := rfl
@[simp] theorem resetCycle_freeTick (s : State) : (resetCycle s).freeTick = s.freeTick + 1 := rfl

@[simp] theorem withFetchWord_slots (s : State) (nbits w : Nat) : (s.withFetchWord nbits w).slots = s.slots := rfl
@[simp] theorem withFetchWord_responses (s : State) (nbits w : Nat) : (s.withFetchWord nbits w).responses = s.responses := rfl
@[simp] theorem withFetchWord_freeTick (s : State) (nbits w : Nat) : (s.withFetchWord nbits w).freeTick = s.freeTick := rfl

@[simp] theorem resetWith_slots (n : Nat) : (State.resetWith n).slots = clearedSlots 0 n := rfl
@[simp] theorem resetWith_inputs (n : Nat) : (State.resetWith n).inputs = [] := rfl
@[simp] theorem resetWith_responses (n : Nat) : (State.resetWith n).responses = [] := rfl

@[simp] theorem clearedSlots_length (tick n : Nat) : (clearedSlots tick n).length = n := by simp [clearedSlots]

theorem clearedSlots_invalid {tick n : Nat} {x : Slot} (h : x ∈ clearedSlots tick n) : x.v = false := by
  simp only [clearedSlots, List.mem_map] at h
  obtain ⟨k, -, rfl⟩ := h
  rfl

end Sys2Proof.Machine
end

