-- ==== Sys2Proof/Laws/Ops.lean ====
section
/-! SUPPORT. What each shared operation does, said once: the response word's fields, the port and the slots over one cycle. -/

namespace Sys2Proof.Machine

/-! ### Status codes and response words -/

@[simp] theorem ofCode_code (e : Status) : Status.ofCode e.code = e := by cases e <;> decide

theorem code_ofCode : ∀ c : BitVec 2, (Status.ofCode c).code = c := by decide

theorem respond_getLsbD (e : Status) (d : RspData) (k : Nat) :
    (respond e d).getLsbD k = if k < 512 then d.getLsbD k else e.code.getLsbD (k - 512) :=
  BitVec.getLsbD_append

theorem respond_statusBits (e : Status) (d : RspData) : (respond e d).extractLsb' 512 2 = e.code := by
  ext k hk
  rw [BitVec.getElem_extractLsb', respond_getLsbD]
  grind

@[simp] theorem rspStatus_respond (e : Status) (d : RspData) : rspStatus (respond e d) = e := by
  rw [rspStatus, respond_statusBits, ofCode_code]

@[simp] theorem rspData_respond (e : Status) (d : RspData) : rspData (respond e d) = d := by
  ext k hk
  rw [rspData, BitVec.getElem_extractLsb', respond_getLsbD]
  grind

/-- A response word is its STATUS and its DATA, nothing else. -/
theorem respond_status_data (rw : RspWord) : respond (rspStatus rw) (rspData rw) = rw := by
  rw [respond, rspStatus, code_ofCode]
  ext k hk
  simp only [rspData, BitVec.getElem_append, BitVec.getElem_extractLsb']
  grind

theorem rspWord32_getLsbD (rw : RspWord) (k : Nat) : (rspWord32 rw).getLsbD k = (decide (k < 32) && (rspData rw).getLsbD k) := by
  by_cases h : k < 32 <;> simp [rspWord32, rspData, h]
  omega

theorem rspWord32_respond (e : Status) (x : Word) : rspWord32 (respond e (x.setWidth 512)) = x := by
  ext k hk
  rw [← BitVec.getLsbD_eq_getElem, rspWord32_getLsbD]
  simp [hk]
  omega

@[simp] theorem rspStatus_raiseError (e : Status) : rspStatus (raiseError e) = e := rspStatus_respond e _

@[simp] theorem rspData_raiseError (e : Status) : rspData (raiseError e) = 0#512 := rspData_respond e _

/-! ### The port and the slots -/

@[simp] theorem portSlot_nil (new : Slot) : portSlot new [] = new := rfl

theorem portSlot_eq_getLast (new : Slot) {slots : List Slot} (h : slots ≠ []) : portSlot new slots = slots.getLast h := by
  simp [portSlot, List.getLast?_eq_some_getLast h]

@[simp] theorem shiftSlots_nil (new : Slot) : shiftSlots new [] = [] := rfl

@[simp] theorem shiftSlots_length (new : Slot) (slots : List Slot) : (shiftSlots new slots).length = slots.length := by
  simp [shiftSlots]

/-- The two readings of one edge: what stands on the port and what stays in the slots are together the new entry and the old
slots. -/
theorem shiftSlots_port (new : Slot) (slots : List Slot) : shiftSlots new slots ++ [portSlot new slots] = new :: slots := by
  rcases List.eq_nil_or_concat slots with rfl | ⟨init, last, rfl⟩
  · rfl
  · simp [shiftSlots, portSlot]

/-- `S[1] <- new` (10_state.md R39). -/
theorem shiftSlots_head (new : Slot) {slots : List Slot} (h : slots ≠ []) : (shiftSlots new slots)[0]? = some new := by
  cases slots with
  | nil => exact absurd rfl h
  | cons a as => simp [shiftSlots]

/-- `S[k+1] <- S[k]` (10_state.md R39). -/
theorem shiftSlots_succ (new : Slot) {slots : List Slot} {k : Nat} (h : k + 1 < slots.length) :
    (shiftSlots new slots)[k + 1]? = slots[k]? := by
  simp [shiftSlots, h]

theorem mem_shiftSlots {new x : Slot} {slots : List Slot} (h : x ∈ shiftSlots new slots) : x = new ∨ x ∈ slots := by
  simpa using List.mem_of_mem_take h

theorem portSlot_mem (new : Slot) (slots : List Slot) : portSlot new slots = new ∨ portSlot new slots ∈ slots := by
  by_cases h : slots = []
  · simp [h]
  · right
    rw [portSlot_eq_getLast new h]
    exact List.getLast_mem h

/-- One edge delivers the oldest response and takes the new one in: nothing is lost, reordered or repeated
(70_reset_and_hazards.md R166). -/
theorem delivered_append_inFlight (new : Slot) (slots : List Slot) :
    delivered (portSlot new slots) ++ inFlight (shiftSlots new slots) = inFlight slots ++ delivered new := by
  have h := congrArg (fun l : List Slot => l.reverse.flatMap delivered) (shiftSlots_port new slots)
  simpa [inFlight] using h

theorem inFlight_of_invalid {slots : List Slot} (h : ∀ x ∈ slots, x.v = false) : inFlight slots = [] := by
  simp only [inFlight, List.flatMap_eq_nil_iff, List.mem_reverse]
  intro x hx
  simp [delivered, h x hx]

@[simp] theorem inFlight_cleared (tick n : Nat) : inFlight (clearedSlots tick n) = [] :=
  inFlight_of_invalid fun _ hx => clearedSlots_invalid hx

theorem mem_delivered {out : Slot} {w : RspWord} : w ∈ delivered out ↔ out.v = true ∧ w = out.w := by
  cases h : out.v <;> simp [delivered, h]

end Sys2Proof.Machine
end

