-- ==== Sys2Proof/Laws/Insert.lean ====
section
/-! SUPPORT. INSERT's masks bit by bit, and what its validation answers (40_insert.md R102, R103). -/

namespace Sys2Proof.Machine

theorem ones_getLsbD (n k : Nat) : (ones n).getLsbD k = (decide (k < 32) && decide (k < n)) := by
  simp [ones, BitVec.getLsbD_ofNat]

/-- The width mask of the full range is all ones, not `(1 << 32) - 1` at 32 bits (40_insert.md R109). -/
theorem ones_full : ones 32 = 0xFFFFFFFF#32 := by decide

theorem preservationMask_getLsbD {r l k : Nat} (hrl : r ≤ l) (hk : k < 32) :
    (preservationMask r l).getLsbD k = (decide (k < r) || decide (l < k)) := by
  have hr : decide (k - r < l - r + 1) = !(decide (l < k) && decide (r ≤ k)) := by grind
  have h32 : k - r < 32 := by omega
  simp only [preservationMask, rangeWidth, BitVec.getLsbD_not, BitVec.getLsbD_shiftLeft, ones_getLsbD, hk, hr, h32]
  grind

theorem insertResult_getLsbD (src ins : Word) {r l k : Nat} (hrl : r ≤ l) (hk : k < 32) :
    (insertResult src ins r l).getLsbD k = if r ≤ k ∧ k ≤ l then ins.getLsbD (k - r) else src.getLsbD k := by
  simp only [insertResult, BitVec.getLsbD_or, BitVec.getLsbD_and, BitVec.getLsbD_shiftLeft, ones_getLsbD,
    preservationMask_getLsbD hrl hk, rangeWidth, hk]
  grind

/-- An index that has passed validation is its own low five bits (30_encoding.md R75). -/
theorem indexBits_eq {idx : Word} (h : idx.toNat ≤ 31) : indexBits idx = idx.toNat := by
  simp only [indexBits, BitVec.extractLsb'_toNat, Nat.shiftRight_zero]
  exact Nat.mod_eq_of_lt (by omega)

/-- Validation, case by case: the first check that fails decides (40_insert.md R102). -/
theorem validate_eq (ridx lidx : Word) :
    validate ridx lidx =
      if ridx.toNat > lidx.toNat then some .eOrder
      else if ridx.toNat > 31 then some .eRightOor
      else if lidx.toNat > 31 then some .eLeftOor
      else none := by
  by_cases h₁ : ridx.toNat > lidx.toNat <;> by_cases h₂ : ridx.toNat > 31 <;> by_cases h₃ : lidx.toNat > 31 <;>
    simp [validate, applicableErrors, validationOrder, IndexCheck.violated, IndexCheck.error, h₁, h₂, h₃]

theorem validRange_iff (ridx lidx : Word) : validRange ridx lidx = true ↔ ridx.toNat ≤ lidx.toNat ∧ lidx.toNat ≤ 31 := by
  simp [validRange]

theorem validate_of_validRange {ridx lidx : Word} (h : validRange ridx lidx = true) : validate ridx lidx = none := by
  rw [validRange_iff] at h
  rw [validate_eq]
  grind

theorem insertResponse_of_validRange (src ins : Word) {ridx lidx : Word} (h : validRange ridx lidx = true) :
    insertResponse src ins ridx lidx =
      respond .ok ((insertResult src ins ridx.toNat lidx.toNat).setWidth 512) := by
  have hv := (validRange_iff ridx lidx).1 h
  rw [insertResponse, validate_of_validRange h, indexBits_eq (by omega), indexBits_eq hv.2]

theorem insertResponse_of_error (src ins : Word) {ridx lidx : Word} {e : Status} (h : validate ridx lidx = some e) :
    insertResponse src ins ridx lidx = raiseError e := by
  rw [insertResponse, h]

end Sys2Proof.Machine
end

