-- ==== Sys2Proof/Laws/PerInstr.lean ====
section
/-! SUPPORT. Per-instruction families. `OpcodeRow`: the encoding of an instruction is a word of its own row of the opcode table,
by the row's mask and match (30_encoding.md R73, 40_insert.md R101, 41_tobin.md R121). -/

namespace Sys2Proof.Laws.OpcodeRow

/-- The `match` of an instruction's row in the opcode table; every row's mask is `1 << 128`. -/
def rowMatch : Instr → CmdWord
  | .insert _ _ _ _ => 0x0_00000000_00000000_00000000_00000000#129
  | .tobin _ => 0x1_00000000_00000000_00000000_00000000#129

def Statement (i : Instr) : Prop := encode i &&& 0x1_00000000_00000000_00000000_00000000#129 = rowMatch i

/-- Masking a word with the rows' mask leaves its opcode bit. -/
theorem mask_eq (cw : CmdWord) :
    cw &&& 0x1_00000000_00000000_00000000_00000000#129 =
      if opcodeBit cw then 0x1_00000000_00000000_00000000_00000000#129 else 0#129 := by
  have hm (k : Nat) : (0x1_00000000_00000000_00000000_00000000#129).getLsbD k = decide (k = 128) := by
    have h2 : (0x1_00000000_00000000_00000000_00000000#129) = BitVec.twoPow 129 128 := by decide
    rw [h2, BitVec.getLsbD_twoPow]
    simp [eq_comm]
  apply BitVec.eq_of_getLsbD_eq
  intro k hk
  rw [BitVec.getLsbD_and, hm]
  by_cases h : k = 128
  · subst h
    rw [← opcodeBit_eq]
    cases opcodeBit cw <;> simp
  · cases opcodeBit cw <;> simp [h, hm]

theorem insert (src ins ridx lidx : Word) : Statement (.insert src ins ridx lidx) := by
  rw [Statement, mask_eq, opcodeBit_encode_insert]
  rfl

theorem tobin (val : DWord) : Statement (.tobin val) := by
  rw [Statement, mask_eq, opcodeBit_encode_tobin]
  rfl

end Sys2Proof.Laws.OpcodeRow
end

