-- ==== Sys2Proof/Laws/Tobin.lean ====
section
/-! SUPPORT. The string of a TOBIN and the bytes of its DATA (41_tobin.md R122, R126). -/

namespace Sys2Proof.Machine

@[simp] theorem binaryString_length (val : DWord) : (binaryString val).length = 64 := by simp [binaryString]

theorem binaryString_getElem? (val : DWord) {i : Nat} (h : i < 64) : (binaryString val)[i]? = some (stringChar val i) := by
  simp [binaryString, h]

theorem packBytes_getLsbD (bs : List Byte) {k : Nat} (hk : k < 512) :
    (packBytes bs).getLsbD k = (bs.getD (k / 8) 0#8).getLsbD (k % 8) := by
  induction bs generalizing k with
  | nil => simp [packBytes]
  | cons b bs ih =>
    simp only [packBytes, BitVec.getLsbD_or, BitVec.getLsbD_shiftLeft, BitVec.getLsbD_setWidth, hk]
    by_cases h8 : k < 8
    · simp [h8, Nat.div_eq_of_lt h8, Nat.mod_eq_of_lt h8]
    · have hdiv : k / 8 = (k - 8) / 8 + 1 := by omega
      have hmod : k % 8 = (k - 8) % 8 := by omega
      rw [ih (by omega), hdiv, hmod]
      simp [h8, BitVec.getLsbD_of_ge b k (by omega)]

/-- Byte `i` of packed bytes is the `i`-th of them (30_encoding.md R80). -/
theorem dataByte_packBytes (bs : List Byte) {i : Nat} (hi : i < 64) : dataByte (packBytes bs) i = bs.getD i 0#8 := by
  ext k hk
  rw [dataByte, BitVec.getElem_extractLsb', packBytes_getLsbD bs (by omega)]
  have hdiv : (8 * i + k) / 8 = i := by omega
  have hmod : (8 * i + k) % 8 = k := by omega
  rw [hdiv, hmod, BitVec.getLsbD_eq_getElem hk]

/-- The code of character `i` stands in byte `i` of a TOBIN's DATA (41_tobin.md R122). -/
theorem dataByte_tobinData (val : DWord) {i : Nat} (hi : i < 64) :
    dataByte (tobinData val) i = if val.getLsbD (63 - i) then Config.char1 else Config.char0 := by
  rw [tobinData, dataByte_packBytes _ hi]
  have h : ((binaryString (reinterpretDouble val)).map charCode)[i]? = some (charCode (stringChar val i)) := by
    rw [List.getElem?_map, reinterpretDouble, binaryString_getElem? val hi]
    rfl
  rw [List.getD_eq_getElem?_getD, h]
  cases hb : val.getLsbD (63 - i) <;> simp [stringChar, hb, bitChar, charCode]

/-- Two DATA fields with the same 64 bytes are equal: the bytes are all of DATA (30_encoding.md R80). -/
theorem data_ext {a b : RspData} (h : ∀ i < 64, dataByte a i = dataByte b i) : a = b := by
  ext k hk
  have hb := congrArg (fun x => x.getLsbD (k % 8)) (h (k / 8) (by omega))
  simp only [dataByte, BitVec.getLsbD_extractLsb', Nat.mod_lt k (by omega : 0 < 8), Nat.div_add_mod] at hb
  simpa [BitVec.getLsbD_eq_getElem hk] using hb

end Sys2Proof.Machine
end

