-- ==== Sys2Proof/Laws/Step.lean ====
section
/-! SUPPORT. What one step can do, said once. -/

namespace Sys2Proof.Machine

/-- The response of a command, whichever it is: what its arm puts into the pipeline. -/
theorem exec_decode (cw : CmdWord) (s : State) : exec (decode cw) s = .next (issueCycle (F cw) s) := by
  cases h : decode cw <;> simp [exec, execInsert, execTobin, F, h]

@[simp] theorem drive_cons (s : State) (d : Drive) (ds : List Drive) : ({ s with inputs := d :: ds } : State).drive = d := rfl

/-- The signals of the port say what a cycle delivers. -/
theorem delivered_port (s : State) : delivered (portSlot s.commandSlot s.slots) = if s.rspValid then [s.rspWire] else [] := rfl

/-- One step, case by case: a reset edge, a refusal, or one move of the pipeline that takes in this cycle's command. -/
theorem step_eq (s : State) :
    step s =
      if s.resets then .next (resetCycle { s with inputs := s.inputs.tail })
      else if s.drive.undriven then .refused .undrivenCommandWord
      else .next (clockCycle s.commandSlot { s with inputs := s.inputs.tail }) := by
  cases hd : s.drive with
  | mk rst v w =>
    simp only [step, runDrive, State.resets, Drive.undriven, hd, State.commandSlot]
    cases h : rst && !s.slots.isEmpty
    · cases v
      · simp
      · cases w with
        | none => simp
        | some cw => simp [exec_decode, issueCycle, drivenResponse]
    · simp

/-- If a step answers a next state, it was a reset edge or a move of the pipeline. -/
theorem step_next {s t : State} (h : step s = .next t) :
    (s.resets = true ∧ t = resetCycle { s with inputs := s.inputs.tail }) ∨
      (s.resets = false ∧ s.drive.undriven = false ∧ t = clockCycle s.commandSlot { s with inputs := s.inputs.tail }) := by
  rw [step_eq] at h
  split at h
  · next hr => exact .inl ⟨hr, by injection h with h; exact h.symm⟩
  · next hr =>
    split at h
    · exact absurd h (by simp)
    · next hu => exact .inr ⟨by simpa using hr, by simpa using hu, by injection h with h; exact h.symm⟩

/-- A cycle that neither resets nor leaves a command undriven moves the pipeline. -/
theorem step_of_plain {s : State} (h : s.drive.plain = true) :
    step s = .next (clockCycle s.commandSlot { s with inputs := s.inputs.tail }) := by
  simp only [Drive.plain, Bool.and_eq_true, Bool.not_eq_true'] at h
  rw [step_eq, if_neg (by simp [State.resets, h.1]), if_neg (by simp [h.2])]

/-! ### Runs -/

theorem run_zero (s : State) : Sys2Proof.core.run 0 s = .next s := rfl

/-- A run whose first step goes on is the run from the state it goes to. -/
theorem run_succ {s t : State} (n : Nat) (h : step s = .next t) : Sys2Proof.core.run (n + 1) s = Sys2Proof.core.run n t := by
  have h' : Sys2Proof.core.step s = .next t := h
  have hrun := Host.Core.run.eq_2 Sys2Proof.core s n
  rw [h'] at hrun
  exact hrun

/-- A run goes through its first part. -/
theorem run_add (m n : Nat) {s t : State} (h : Sys2Proof.core.run m s = .next t) :
    Sys2Proof.core.run (m + n) s = Sys2Proof.core.run n t := by
  induction m generalizing s with
  | zero =>
    rw [run_zero] at h
    injection h with h
    rw [h, Nat.zero_add]
  | succ m ih =>
    cases hs : step s with
    | next u =>
      rw [run_succ m hs] at h
      rw [Nat.add_right_comm, run_succ (m + n) hs]
      exact ih h
    | fault r => nomatch r
    | refused r =>
      have hs' : Sys2Proof.core.step s = .refused r := hs
      have hrun := Host.Core.run.eq_2 Sys2Proof.core s m
      rw [hs'] at hrun
      nomatch hrun.symm.trans h

end Sys2Proof.Machine
end

