-- ==== Sys2Proof/Laws/Script.lean ====
section
/-! SUPPORT. What a host that runs a program does: one cycle, one line with its waits, and the names its lines bind
(30_encoding.md R86, 70_reset_and_hazards.md R165, R166). -/

namespace Sys2Proof.Machine

/-- The host's count agrees with the pipeline: each command issued has its response received or in flight. -/
def HostRun.Accounted (h : HostRun) : Prop := h.results.length + (inFlight h.core.slots).length = h.issued.length

/-- The response a host can read in the pipelined form before it drives the cycle. -/
def registeredResponse (slots : List Slot) : List RspWord := (slots.getLast?.map delivered).getD []

@[simp] theorem registeredResponse_nil : registeredResponse [] = [] := rfl

theorem registeredResponse_eq (new : Slot) {slots : List Slot} (h : slots ≠ []) :
    registeredResponse slots = delivered (portSlot new slots) := by
  rw [portSlot_eq_getLast new h, registeredResponse, List.getLast?_eq_some_getLast h]
  rfl

/-- A host that still waits for a response takes what the port delivers. -/
theorem foldl_take_delivered (out : Slot) (h : HostRun) (hl : (delivered out).length + h.results.length ≤ h.issued.length) :
    (delivered out).foldl (fun r w => r.take w) h = { h with results := h.results ++ delivered out } := by
  unfold delivered at *
  split
  · next hv =>
    simp only [hv, if_true, List.length_singleton] at hl
    simp only [List.foldl_cons, List.foldl_nil, HostRun.take]
    rw [if_pos (by omega)]
  · simp

theorem inFlight_eq_getLast {slots : List Slot} (h : slots ≠ []) :
    inFlight slots = delivered (slots.getLast h) ++ inFlight slots.dropLast := by
  conv_lhs => rw [← List.dropLast_concat_getLast h]
  simp [inFlight]

theorem takeRegistered_eq {h : HostRun} (hi : h.Accounted) :
    h.takeRegistered = { h with results := h.results ++ registeredResponse h.core.slots } := by
  unfold HostRun.takeRegistered registeredResponse
  cases hl : h.core.slots.getLast? with
  | none => simp
  | some out =>
    have hne : h.core.slots ≠ [] := by
      intro e
      simp [e] at hl
    rw [List.getLast?_eq_some_getLast hne, Option.some.injEq] at hl
    simp only [Option.map_some, Option.getD_some]
    apply foldl_take_delivered
    rw [HostRun.Accounted, inFlight_eq_getLast hne, hl, List.length_append] at hi
    omega

/-- What a cycle of the host leaves it with: the account is kept, the pipeline has taken in `new`, and the host has received at most
one response. -/
structure HostRun.Moved (h h' : HostRun) (new : Slot) : Prop where
  accounted : h'.Accounted
  slots : h'.core.slots = shiftSlots new h.core.slots
  results : h'.results = h.results ++ (if h.core.slots = [] then delivered new else registeredResponse h.core.slots)

/-- One clock cycle of a host `g` that has read the registered response of `h` and recorded the command it drives, if any. -/
theorem clock_spec {d : Drive} {h g : HostRun} {new : Slot} (hi : h.Accounted) (hp : d.plain = true)
    (hnew : new = ⟨d.cmdValid, drivenResponse d h.core.freeTick⟩) (hcore : g.core = h.core)
    (hres : g.results = h.results ++ registeredResponse h.core.slots)
    (hlen : g.issued.length = h.issued.length + (delivered new).length) :
    ∃ h', g.clock d = .ok h' ∧ h'.issued = g.issued ∧ h'.vars = g.vars ∧ h.Moved h' new := by
  have hstep := step_of_plain (s := { h.core with inputs := [d] }) (by simpa using hp)
  have hslot : ({ h.core with inputs := [d] } : State).commandSlot = new := hnew.symm
  rw [hslot] at hstep
  rw [HostRun.clock, hcore, hstep]
  refine ⟨_, rfl, ?_⟩
  rw [HostRun.Accounted] at hi
  by_cases he : h.core.slots = []
  · simp only [he, List.isEmpty_nil, if_true, clockCycle_responses, List.drop_left, portSlot_nil]
    rw [he, registeredResponse_nil, List.append_nil] at hres
    simp only [he, inFlight, List.reverse_nil, List.flatMap_nil, List.length_nil, Nat.add_zero] at hi
    rw [foldl_take_delivered _ _ (by simp only [hres]; omega)]
    refine ⟨rfl, rfl, ?_, by simp [he], by simp [he, hres]⟩
    simp [HostRun.Accounted, hres, hlen, inFlight, hi]
  · have hport : registeredResponse h.core.slots = delivered (portSlot new h.core.slots) := registeredResponse_eq new he
    refine ⟨by simp [he], by simp [he], ?_, by simp [he], by simp [he, hres]⟩
    have hflow := congrArg List.length (delivered_append_inFlight new h.core.slots)
    simp only [List.length_append] at hflow
    simp only [HostRun.Accounted, he, List.isEmpty_iff, if_false, List.foldl_nil, clockCycle_slots, hres, hlen, hport,
      List.length_append]
    omega

/-- A cycle in which the host waits always goes on. -/
theorem act_wait {h : HostRun} (hi : h.Accounted) :
    ∃ h' new, h.act .wait = .ok h' ∧ new.v = false ∧ h'.issued = h.issued ∧ h'.vars = h.vars ∧ h.Moved h' new := by
  obtain ⟨h', hc, h1, h2, h3⟩ := clock_spec (d := Drive.idle) (new := ⟨false, drivenResponse Drive.idle h.core.freeTick⟩)
    (g := { h with results := h.results ++ registeredResponse h.core.slots }) hi rfl rfl rfl rfl (by simp [delivered])
  exact ⟨h', _, by rw [HostRun.act, takeRegistered_eq hi]; exact hc, rfl, h1, h2, h3⟩

/-- A cycle in which the host issues a line goes on if the host can form the command from what it has received. -/
theorem act_issue {h : HostRun} (line : AsmLine) (hi : h.Accounted) :
    (∀ e, h.takeRegistered.form line.command = .error e → h.act (.issue line) = .error e) ∧
      ∀ cw, h.takeRegistered.form line.command = .ok cw →
        ∃ h', h.act (.issue line) = .ok h' ∧ h'.issued = h.issued ++ [cw] ∧ h'.vars = (h.record line.bind cw).vars ∧
          h.Moved h' ⟨true, F cw⟩ := by
  have hact : h.act (.issue line) = (h.takeRegistered.form line.command).bind fun cw =>
    (h.takeRegistered.record line.bind cw).clock (Drive.issue cw) := rfl
  refine ⟨fun e he => by rw [hact, he]; rfl, fun cw hf => ?_⟩
  obtain ⟨h', hc, h1, h2, h3⟩ := clock_spec (d := Drive.issue cw) (new := ⟨true, F cw⟩)
    (g := h.takeRegistered.record line.bind cw) hi rfl rfl (by rw [takeRegistered_eq hi]; rfl)
    (by rw [takeRegistered_eq hi]; rfl) (by rw [takeRegistered_eq hi]; simp [HostRun.record, delivered])
  rw [takeRegistered_eq hi] at h1 h2
  exact ⟨h', by rw [hact, hf]; exact hc, h1, h2, h3⟩

/-- A run of actions goes through its first part. -/
theorem runActions_append (as bs : List HostAction) (h : HostRun) :
    runActions (as ++ bs) h = (runActions as h).bind (runActions bs) := by
  induction as generalizing h with
  | nil => rfl
  | cons a as ih =>
    rw [List.cons_append, runActions, runActions]
    cases h.act a with
    | error e => rfl
    | ok g => exact ih g

/-! ### Lines and their waits -/

/-- The host has, or can read on the port, the response to every command it has issued. -/
def HostRun.Settled (h : HostRun) : Prop :=
  h.Accounted ∧ h.results ++ registeredResponse h.core.slots = h.issued.map F ∧
    ∀ (q : Nat) (x : Slot), q + 1 ≠ h.core.slots.length → h.core.slots[q]? = some x → x.v = false

/-- While the host waits, the response in `S[p+1]` moves up with nothing else in the pipeline. -/
theorem waits_spec (k : Nat) {h : HostRun} {p : Nat} {w : RspWord} (hi : h.Accounted) (hp : p + k < h.core.slots.length)
    (hw : h.core.slots[p]? = some ⟨true, w⟩)
    (hq : ∀ (q : Nat) (x : Slot), q ≠ p → h.core.slots[q]? = some x → x.v = false) :
    ∃ h', runActions (List.replicate k .wait) h = .ok h' ∧ h'.Accounted ∧ h'.issued = h.issued ∧ h'.vars = h.vars ∧
      h'.results = h.results ∧ h'.core.slots.length = h.core.slots.length ∧ h'.core.slots[p + k]? = some ⟨true, w⟩ ∧
      ∀ (q : Nat) (x : Slot), q ≠ p + k → h'.core.slots[q]? = some x → x.v = false := by
  induction k generalizing h p with
  | zero => exact ⟨h, rfl, hi, rfl, rfl, rfl, rfl, hw, hq⟩
  | succ k ih =>
    obtain ⟨g, new, hg, hv, h1, h2, h3⟩ := act_wait hi
    have hne : h.core.slots ≠ [] := by
      intro e
      simp [e] at hp
    have hslots := h3.slots
    have hlast : registeredResponse h.core.slots = [] := by
      have hx := hq (h.core.slots.length - 1) (h.core.slots.getLast hne) (by omega)
        (by rw [← List.getLast?_eq_getElem?, List.getLast?_eq_some_getLast hne])
      simp [registeredResponse, List.getLast?_eq_some_getLast hne, delivered, hx]
    have hres := h3.results
    rw [if_neg hne, hlast, List.append_nil] at hres
    have hlen : g.core.slots.length = h.core.slots.length := by rw [hslots, shiftSlots_length]
    obtain ⟨h', hr, a1, a2, a3, a4, a5, a6, a7⟩ := ih (h := g) (p := p + 1) h3.accounted (by omega)
      (by rw [hslots, shiftSlots_succ _ (by omega)]; exact hw)
      (by
        intro q x hqp hx
        have hlt : q < h.core.slots.length := hlen ▸ (List.getElem?_eq_some_iff.1 hx).1
        rw [hslots] at hx
        cases q with
        | zero =>
          rw [shiftSlots_head _ hne] at hx
          cases hx
          exact hv
        | succ q =>
          rw [shiftSlots_succ _ hlt] at hx
          exact hq q x (by omega) hx)
    refine ⟨h', ?_, a1, a2.trans h1, a3.trans h2, a4.trans hres, a5.trans hlen, ?_, ?_⟩
    · rw [List.replicate_succ, runActions, hg]
      exact hr
    · rw [← a6]
      congr 1
      omega
    · intro q x hqp hx
      exact a7 q x (by omega) hx

/-- After the issue of a line the pipeline holds its response in `S[1]` and nothing else. -/
theorem issued_slots {h h' : HostRun} {cw : CmdWord} (hm : h.Moved h' ⟨true, F cw⟩) (hne : h.core.slots ≠ [])
    (hq : ∀ (q : Nat) (x : Slot), q + 1 ≠ h.core.slots.length → h.core.slots[q]? = some x → x.v = false) :
    h'.core.slots[0]? = some ⟨true, F cw⟩ ∧ ∀ (q : Nat) (x : Slot), q ≠ 0 → h'.core.slots[q]? = some x → x.v = false := by
  refine ⟨by rw [hm.slots, shiftSlots_head _ hne], ?_⟩
  intro q x hqp hx
  have hlt : q < h.core.slots.length := by
    have := (List.getElem?_eq_some_iff.1 hx).1
    rwa [hm.slots, shiftSlots_length] at this
  rw [hm.slots] at hx
  cases q with
  | zero => exact absurd rfl hqp
  | succ q =>
    rw [shiftSlots_succ _ hlt] at hx
    exact hq q x (by omega) hx

/-- A settled host that reads the port has the responses to all its commands. -/
theorem takeRegistered_of_settled {h : HostRun} (hs : h.Settled) : h.takeRegistered = { h with results := h.issued.map F } := by
  rw [takeRegistered_eq hs.1, hs.2.1]

/-- A line and its waits: it goes through if the host can form the command from all the responses so far, and leaves the host
settled again. -/
theorem line_spec {h : HostRun} (line : AsmLine) (hs : h.Settled) :
    (∀ e, ({ h with results := h.issued.map F } : HostRun).form line.command = .error e →
      runActions (.issue line :: List.replicate (h.core.stages - 1) .wait) h = .error e) ∧
    ∀ cw, ({ h with results := h.issued.map F } : HostRun).form line.command = .ok cw →
      ∃ h', runActions (.issue line :: List.replicate (h.core.stages - 1) .wait) h = .ok h' ∧ h'.Settled ∧
        h'.core.stages = h.core.stages ∧ h'.issued = h.issued ++ [cw] ∧ h'.vars = (h.record line.bind cw).vars := by
  have hact := act_issue line hs.1
  rw [takeRegistered_of_settled hs] at hact
  refine ⟨fun e he => by rw [runActions, hact.1 e he]; rfl, fun cw hf => ?_⟩
  obtain ⟨g, hg, h1, h2, hm⟩ := hact.2 cw hf
  by_cases hne : h.core.slots = []
  · have h0 : h.core.stages - 1 = 0 := by simp [State.stages, hne]
    have hgs : g.core.slots = [] := by rw [hm.slots, hne, shiftSlots_nil]
    refine ⟨g, by rw [h0, List.replicate_zero, runActions, hg]; rfl, ⟨hm.accounted, ?_, by simp [hgs]⟩,
      by simp [State.stages, hne, hgs], h1, h2⟩
    have hr := hs.2.1
    rw [hne, registeredResponse_nil, List.append_nil] at hr
    rw [hm.results, hgs, h1, if_pos hne, hr]
    simp [delivered]
  · have hlen : g.core.slots.length = h.core.slots.length := by rw [hm.slots, shiftSlots_length]
    have hpos := List.length_pos_iff.2 hne
    have hst : h.core.stages = h.core.slots.length := rfl
    obtain ⟨b1, b2⟩ := issued_slots hm hne hs.2.2
    obtain ⟨h', hr, a1, a2, a3, a4, a5, a6, a7⟩ := waits_spec (h.core.stages - 1) hm.accounted (p := 0)
      (by omega) b1 b2
    refine ⟨h', by rw [runActions, hg]; exact hr, ⟨a1, ?_, ?_⟩, ?_, a2.trans h1, a3.trans h2⟩
    · rw [a4, hm.results, if_neg hne, hs.2.1, a2, h1, registeredResponse, List.getLast?_eq_getElem?]
      rw [show h'.core.slots.length - 1 = 0 + (h.core.stages - 1) by omega, a6]
      simp [delivered]
    · intro q x hqp hx
      exact a7 q x (by omega) hx
    · simp [State.stages, a5, hlen]

/-- A host before its first command at a machine with nothing in flight is settled. -/
theorem start_settled {core : State} (hv : ∀ x ∈ core.slots, x.v = false) : (HostRun.start core).Settled := by
  refine ⟨by simp [HostRun.Accounted, HostRun.start, inFlight_of_invalid hv], ?_,
    fun q x _ hx => hv x (List.mem_of_getElem? hx)⟩
  cases hl : core.slots.getLast? with
  | none => simp [HostRun.start, registeredResponse, hl]
  | some x => simp [HostRun.start, registeredResponse, hl, delivered, hv x (List.mem_of_getLast? hl)]

/-- After the last wait a settled host has received every response. -/
theorem last_wait {h : HostRun} (hs : h.Settled) : ∃ g, runActions (List.replicate (min h.core.stages 1) .wait) h = .ok g ∧
    g.issued = h.issued ∧ g.vars = h.vars ∧ g.results = h.issued.map F := by
  have hr := hs.2.1
  by_cases hne : h.core.slots = []
  · refine ⟨h, by simp [State.stages, hne, runActions], rfl, rfl, ?_⟩
    simpa [hne] using hr
  · have := List.length_pos_iff.2 hne
    obtain ⟨g, new, h1, _, h2, h3, hm⟩ := act_wait hs.1
    refine ⟨g, ?_, h2, h3, by rw [hm.results, if_neg hne, hr]⟩
    rw [show min h.core.stages 1 = 1 by simp only [State.stages]; omega]
    change (h.act .wait).bind (runActions []) = _
    rw [h1]
    rfl

/-! ### Names -/

/-- The variables of a host are those its lines have bound. -/
def HostRun.Bound (lines : List AsmLine) (h : HostRun) : Prop :=
  h.issued.length = lines.length ∧ (h.vars.map Prod.fst).Nodup ∧ ∀ name j, (name, j) ∈ h.vars ↔ BindsLatest lines name lines.length j

/-- Lines after line `k` do not matter for what line `k` sees. -/
theorem bindsLatest_append_of_le {lines more : List AsmLine} {name : Text} {k j : Nat} (hk : k ≤ lines.length) :
    BindsLatest (lines ++ more) name k j ↔ BindsLatest lines name k j := by
  unfold BindsLatest
  constructor
  · rintro ⟨a, ⟨l, b, c⟩, d⟩
    refine ⟨a, ⟨l, by rwa [List.getElem?_append_left (by omega)] at b, c⟩, fun i l hi hk' hl => d i l hi hk' ?_⟩
    rwa [List.getElem?_append_left (by omega)]
  · rintro ⟨a, ⟨l, b, c⟩, d⟩
    refine ⟨a, ⟨l, by rwa [List.getElem?_append_left (by omega)], c⟩, fun i l hi hk' hl => d i l hi hk' ?_⟩
    rwa [List.getElem?_append_left (by omega)] at hl

/-- One more line binds its own name and leaves the others. -/
theorem bindsLatest_concat {lines : List AsmLine} {line : AsmLine} {name : Text} {j : Nat} :
    BindsLatest (lines ++ [line]) name (lines ++ [line]).length j ↔
      (line.bind = some name ∧ j = lines.length) ∨ (line.bind ≠ some name ∧ BindsLatest lines name lines.length j) := by
  rw [← bindsLatest_append_of_le (lines := lines) (more := [line]) le_rfl]
  have hlast : (lines ++ [line])[lines.length]? = some line := by simp
  simp only [BindsLatest, List.length_append, List.length_singleton]
  constructor
  · rintro ⟨a, ⟨l, b, c⟩, d⟩
    by_cases hj : j = lines.length
    · subst hj
      rw [hlast] at b
      cases b
      exact .inl ⟨c, rfl⟩
    · exact .inr ⟨d _ _ (by omega) (by omega) hlast, by omega, ⟨l, b, c⟩, fun i m hi hk hm => d i m hi (by omega) hm⟩
  · rintro (⟨a, rfl⟩ | ⟨a, b, c, d⟩)
    · exact ⟨by omega, ⟨line, hlast, a⟩, fun i l hi hk => by omega⟩
    · refine ⟨by omega, c, fun i l hi hk hl => ?_⟩
      by_cases hie : i = lines.length
      · subst hie
        rw [hlast] at hl
        cases hl
        exact a
      · exact d i l hi (by omega) hl

theorem record_bound {lines : List AsmLine} {line : AsmLine} {cw : CmdWord} {h h' : HostRun} (hb : h.Bound lines)
    (hi : h'.issued = h.issued ++ [cw]) (hv : h'.vars = (h.record line.bind cw).vars) : h'.Bound (lines ++ [line]) := by
  obtain ⟨h1, h2, h3⟩ := hb
  refine ⟨by simp [hi, h1], ?_, fun name j => ?_⟩
  · rw [hv]
    unfold HostRun.record
    cases line.bind with
    | none => exact h2
    | some n =>
      simp only [List.map_cons, List.nodup_cons]
      refine ⟨by simp, (h2.sublist (List.Sublist.map _ List.filter_sublist))⟩
  · rw [bindsLatest_concat, ← h3, hv]
    unfold HostRun.record
    cases line.bind with
    | none => simp
    | some n =>
      simp only [List.mem_cons, List.mem_filter, Prod.mk.injEq, h1]
      simp only [ne_eq, decide_eq_true_eq, Option.some.injEq]
      constructor
      · rintro (⟨a, b⟩ | ⟨a, b⟩)
        · exact .inl ⟨a.symm, b⟩
        · exact .inr ⟨fun e => b e.symm, a⟩
      · rintro (⟨a, b⟩ | ⟨a, b⟩)
        · exact .inl ⟨a.symm, b⟩
        · exact .inr ⟨b, fun e => a e.symm⟩

/-- A host looks a name up where the program binds it. -/
theorem lookup_bound {lines : List AsmLine} {h : HostRun} (hb : h.Bound lines) (name : Text) (j : Nat) :
    h.lookup name = some j ↔ BindsLatest lines name lines.length j := by
  rw [← hb.2.2]
  have hnd := hb.2.1
  unfold HostRun.lookup
  clear hb
  revert hnd
  generalize h.vars = vars
  intro hnd
  induction vars with
  | nil => simp
  | cons b bs ih =>
    simp only [List.map_cons, List.nodup_cons, List.mem_map, not_exists, not_and] at hnd
    rw [List.find?_cons]
    by_cases hn : b.1 = name
    · simp only [hn, decide_true, Option.map_some, Option.some.injEq, List.mem_cons]
      constructor
      · rintro rfl
        exact .inl (by rw [← hn])
      · rintro (e | hm)
        · rw [← e]
        · exact absurd hn.symm (by simpa using hnd.1 _ hm)
    · simp only [hn, decide_false, List.mem_cons]
      refine (ih hnd.2).trans ?_
      constructor
      · exact .inr
      · rintro (e | hm)
        · exact absurd (by rw [← e]) hn
        · exact hm

theorem bound_start (core : State) : (HostRun.start core).Bound [] := by
  refine ⟨rfl, by simp [HostRun.start], ?_⟩
  simp [HostRun.start, BindsLatest]

theorem nameStandsFor_append {lines more : List AsmLine} {ws ws' : List CmdWord} {k : Nat} (hk : k ≤ lines.length)
    (hw : k ≤ ws.length) (name : Text) (v : Word) :
    NameStandsFor (lines ++ more) (ws ++ ws') k name v ↔ NameStandsFor lines ws k name v := by
  unfold NameStandsFor
  simp only [bindsLatest_append_of_le hk]
  constructor <;> rintro ⟨j, cw, a, b, c⟩ <;> refine ⟨j, cw, a, ?_, c⟩ <;> have := a.1
  · rwa [List.getElem?_append_left (by omega)] at b
  · rwa [List.getElem?_append_left (by omega)]

/-- What line `k` forms depends on the lines and words before it only. -/
theorem forms_append {lines more : List AsmLine} {ws ws' : List CmdWord} {k : Nat} (hk : k ≤ lines.length)
    (hw : k ≤ ws.length) (c : AsmCommand) (cw : CmdWord) :
    c.Forms (lines ++ more) (ws ++ ws') k cw ↔ c.Forms lines ws k cw := by
  have h32 : ∀ (a : Arg32) (v : Word), a.StandsFor (lines ++ more) (ws ++ ws') k v ↔ a.StandsFor lines ws k v := by
    intro a v
    cases a with
    | lit w => rfl
    | var name => exact nameStandsFor_append hk hw name v
  have h64 : ∀ (a : Arg64) (v : DWord), a.StandsFor (lines ++ more) (ws ++ ws') k v ↔ a.StandsFor lines ws k v := by
    intro a v
    cases a with
    | lit w => rfl
    | var name => simp only [Arg64.StandsFor, nameStandsFor_append hk hw]
    | pair hi lo => simp only [Arg64.StandsFor, nameStandsFor_append hk hw]
  cases c <;> simp only [AsmCommand.Forms, h32, h64]

end Sys2Proof.Machine
end

