-- ==== Sys2Proof/Tests/Slice0.lean ====
section
/-! SUPPORT. The model's own tests. Every expected value is the spec's: a vector of 95_test_vectors.md, a worked example, or a
word written out from the layouts of 30_encoding.md. The theorems named `witness_` show states and operands that meet the
hypotheses of the statement they are named after. -/

-- One thread for this file's many small proofs.
set_option Elab.async false

namespace Sys2Proof.Tests

open Sys2Proof Sys2Proof.Machine

/-! ### Well-formedness and decoding -/

/-- R70, R81: a number with bit 129 set is no command word. -/
theorem test_wordFits_refuses_bit_129 : commandWordFits (2 ^ 129) = false := by decide

theorem test_wordFits_accepts_all_ones : commandWordFits (2 ^ 129 - 1) = true := by decide

theorem test_decodeTableWord_refuses_bit_129 : decodeTableWord 136 (2 ^ 129) = none := by decide

/-- V1: `0_00000008_00000003_0000028F_00000AA8` is `INSERT 2728, 655, 3, 8`. -/
theorem test_decode_insert_V1 : decodeTableWord 136 0x0_00000008_00000003_0000028F_00000AA8 =
    some (.insert 2728#32 655#32 3#32 8#32) := by decide

/-- T17: `1_0000000000000000_C06FE828F5C28F5C` is `TOBIN -255.255`. -/
theorem test_decode_tobin_T17 : decodeTableWord 136 0x1_00000000_00000000_C06FE828_F5C28F5C =
    some (.tobin 0xC06FE828F5C28F5C#64) := by decide

/-- R71, bit by bit: OP, LIDX = 23, RIDX = 8, INS = 0xABCD, SRC = 0x12345678 (V8). -/
theorem test_encode_insert_V8 : encode (.insert 0x12345678#32 0xABCD#32 8#32 23#32) =
    0b0#1 ++ 0b00000000000000000000000000010111#32 ++ 0b00000000000000000000000000001000#32 ++
      0b00000000000000001010101111001101#32 ++ 0b00010010001101000101011001111000#32 := by decide

/-- R84: the assembler writes zeros into a TOBIN's ignored bits (T9). -/
theorem test_encode_tobin_T9 : encode (.tobin 0x3FF0000000000000#64) = 0x1_00000000_00000000_3FF00000_00000000#129 := by decide

/-! ### INSERT and TOBIN -/

/-- V8: a middle field; a swapped SRC and INS, or swapped indices, would show. -/
theorem test_insert_V8 : F 0x0_00000017_00000008_0000ABCD_12345678#129 = respond .ok 0x12ABCD78#512 := by decide +kernel

/-- V22: the order error wins when both indices are also out of range. -/
theorem test_insert_V22 : F 0x0_00000023_00000028_00000001_00000005#129 = 0b01#2 ++ 0#512 := by decide +kernel

/-- T14: distinct nibbles, the order of the bits. -/
theorem test_tobin_T14 : rspString (F 0x1_00000000_00000000_01234567_89ABCDEF#129) =
    "0000000100100011010001010110011110001001101010111100110111101111".toList := by decide +kernel

/-- T16, T9: the DATA of 1.0 with ignored bits set, as the spec prints it. -/
theorem test_tobin_T16 : F 0x1_DEADBEEF_CAFEF00D_3FF00000_00000000#129 = respond .ok
    0x30303030303030303030303030303030303030303030303030303030303030303030303030303030303030303030303030303030313131313131313131313030#512 := by
  decide +kernel

/-! ### The pipeline: cycles 3 and 5 of program P4 -/

/-- A of P4, `INSERT 2728, 655, 3, 8`. -/
def cwA : CmdWord := 0x0_00000008_00000003_0000028F_00000AA8#129

/-- B of P4, `TOBIN 0x8000000000000000`. -/
def cwB : CmdWord := 0x1_00000000_00000000_80000000_00000000#129

/-- C of P4, `INSERT 5, 1, 3, 2`. -/
def cwC : CmdWord := 0x0_00000002_00000003_00000001_00000005#129

/-- D of P4, `INSERT -1, 0, 31, 31`. -/
def cwD : CmdWord := 0x0_0000001F_0000001F_00000000_FFFFFFFF#129

/-- A machine with given slots and given drives. -/
def at' (slots : List Slot) (inputs : List Drive) : State := { slots := slots, inputs := inputs, responses := [], freeTick := 0 }

/-- P4 during cycle 3. -/
def p4Cycle3 : State := at' [⟨true, F cwB⟩, ⟨true, F cwA⟩] [Drive.idle]

/-- P4 during cycle 5: `rst = 1` while D is presented. -/
def p4Cycle5 : State := at' [⟨true, F cwC⟩, ⟨false, 0#514⟩] [⟨true, true, some cwD⟩]

/-- The state after one step, if there is one. -/
def after (s : State) : Option State :=
  match step s with
  | .next t => some t
  | .fault _ => none
  | .refused _ => none

/-- P4, cycle 3: `rsp_word` is F(A), and cycle 4 starts with `S[2] = (1, F(B))`. -/
theorem test_P4_cycle3 : (after p4Cycle3).map (fun t => (t.responses, t.slots[1]?)) = some ([F cwA], some ⟨true, F cwB⟩) := by
  decide +kernel

/-- P4, cycle 5: C and D are dropped. -/
theorem test_P4_cycle5 : (after p4Cycle5).map (fun t => (t.responses, t.slots.map Slot.v)) = some ([], [false, false]) := by
  decide +kernel

/-- P4, cycle 1: A enters `S[1]` of a machine after reset. -/
theorem test_P4_cycle1 : (after { State.resetWith 2 with inputs := [Drive.issue cwA] }).map
    (fun t => (t.slots[0]?, t.slots.map Slot.v)) = some (some ⟨true, F cwA⟩, [true, false]) := by
  decide +kernel

/-- `withFetchWord` makes the very next step from reset run the instruction. -/
theorem test_first_step_after_reset :
    (after (State.reset.withFetchWord 136 0x0_00000008_00000003_0000028F_00000AA8)).map State.responses =
      some [respond .ok 2680#512] := by
  decide +kernel

/-! ### The notation and host programs -/

/-- P1, line 2, and R82: mnemonics are case-insensitive, a comment runs to the end of the line. -/
theorem test_parseLine_P1 : parseLine " $b = insert $a, 5, 8, 11 ; a comment".toList =
    .ok (some { bind := some ['b'], command := .insert (.var ['a']) (.lit 5#32) (.lit 8#32) (.lit 11#32) }) := by decide

/-- V4: negative decimals. -/
theorem test_assemble_V4 : assembleText "INSERT -2147483648, 2147483647, 0, 30".toList =
    some 0x0_0000001E_00000000_7FFFFFFF_80000000#129 := by decide +kernel

/-- T17 and G6: the pattern nearest to -255.255. -/
theorem test_assemble_T17 : assembleText "TOBIN -255.255".toList = some 0x1_00000000_00000000_C06FE828_F5C28F5C#129 := by decide +kernel

/-- R83: a literal that does not fit its field is an assembly error. -/
theorem test_parseLine_too_large : parseLine "INSERT 4294967296, 0, 0, 0".toList = .error .literalDoesNotFit := by decide

/-- R87: the disassembly of V1. -/
theorem test_disassemble_V1 : disassemble cwA = "INSERT 0x00000AA8, 0x0000028F, 3, 8".toList := by decide

/-- The host of P1 before line 4, its three results received. -/
def p1BeforeLine4 : HostRun :=
  { core := State.reset, vars := [(['c'], 2), (['b'], 1), (['a'], 0)],
    issued := [encode (.insert 0#32 0xFF#32 0#32 7#32), encode (.insert 0xFF#32 5#32 8#32 11#32),
      encode (.insert 0x5FF#32 1#32 31#32 31#32)],
    results := [respond .ok 0xFF#512, respond .ok 0x5FF#512, respond .ok 0x800005FF#512] }

/-- P1, line 4: `TOBIN $c:$b` is `TOBIN 0x800005FF000005FF`. -/
theorem test_form_P1 : p1BeforeLine4.form (.tobin (.pair ['c'] ['b'])) =
    .ok 0x1_00000000_00000000_800005FF_000005FF#129 := by decide +kernel

/-- P1's variables after its line 3, as R169 has them in the final state: `$c` is the `RES` 0x800005FF of line 3. -/
theorem test_finalState_P1 : p1BeforeLine4.finalState.vars.head? =
    some { name := ['c'], status := .ok, value := some (.word 0x800005FF#32) } := by decide +kernel

/-- R79, R86: a variable bound to a command that was answered by an error has a status and no value (C of P4). -/
theorem test_varOf_error : HostRun.varOf (['e'], 0) { core := State.reset, vars := [], issued := [cwC], results := [F cwC] } =
    some { name := ['e'], status := .eOrder, value := none } := by decide +kernel

/-! ### Witnesses -/

theorem witness_FieldsStandAtTheirBits_insert : decode cwD = .insert 0xFFFFFFFF#32 0#32 31#32 31#32 ∧ 31 < 32 := by decide

theorem witness_FieldsStandAtTheirBits_tobin : decode cwB = .tobin 0x8000000000000000#64 ∧ 63 < 64 := by decide

theorem witness_FieldsStandAtTheirBits_ignored :
    let cw := 0x1_DEADBEEF_CAFEF00D_3FF00000_00000000#129
    let cw' := 0x1_00000000_00000000_3FF00000_00000000#129
    cw.getLsbD 128 = true ∧ cw'.getLsbD 128 = true ∧ cw ≠ cw' ∧ ∀ k < 64, cw.getLsbD k = cw'.getLsbD k := by decide

theorem witness_DecodingAndEncodingAgree : (Instr.tobin 0#64).wellFormed = true ∧ cwA.getLsbD 128 = false ∧
    (0x1_DEADBEEF_CAFEF00D_3FF00000_00000000#129).getLsbD 128 = true := by decide

/-- One witness for each check, at the boundary: (32, 31), (32, 32) and (31, 32). -/
theorem witness_InsertValidationRaisesTheFirstError :
    (32#32).toNat > (31#32).toNat ∧ ((32#32).toNat ≤ (32#32).toNat ∧ (32#32).toNat > 31) ∧
      ((31#32).toNat ≤ 31 ∧ (32#32).toNat > 31) := by decide

theorem witness_InsertComputesItsResult : (31#32).toNat ≤ (31#32).toNat ∧ (31#32).toNat ≤ 31 := by decide

/-- Also for `InsertIgnoresBitsAboveTheWidth`, `InsertWidthOneLaw`, `InsertSignBitLaw` and the first two laws of `InsertAlgebra`. -/
theorem witness_InsertBitLaw : validRange 31#32 31#32 = true ∧ validRange 0#32 31#32 = true ∧ 31 < 32 := by decide

theorem witness_InsertIgnoresBitsAboveTheWidth : validRange 4#32 7#32 = true ∧ (0x0F#32 : Word) ≠ 0xFF#32 ∧
    ∀ k < (7#32).toNat - (4#32).toNat + 1, (0x0F#32).getLsbD k = (0xFF#32).getLsbD k := by decide

theorem witness_InsertSignBitLaw : (31#32).toNat ≤ 31 ∧ 30 < (31#32).toNat ∧ (31#32).toNat ≤ 31 ∧ 31 < 32 := by decide

theorem witness_InsertAlgebra_disjoint : validRange 0#32 15#32 = true ∧ validRange 16#32 31#32 = true ∧
    (15#32).toNat < (16#32).toNat := by decide

/-- Each of the codes is reported: (40, 35), (32, 32), (31, 32) and (31, 31). -/
theorem witness_InsertErrorIsAnApplicableOne :
    rspStatus (commandResponse (.insert 5#32 1#32 40#32 35#32)) = .eOrder ∧
      rspStatus (commandResponse (.insert 5#32 1#32 32#32 32#32)) = .eRightOor ∧
      rspStatus (commandResponse (.insert 5#32 1#32 31#32 32#32)) = .eLeftOor ∧
      rspStatus (commandResponse (.insert 5#32 1#32 31#32 31#32)) = .ok := by decide +kernel

theorem witness_TobinRoundTrip : ∀ i < 64, dataByte (tobinData 0x0123456789ABCDEF#64) i = 0x30#8 ∨
    dataByte (tobinData 0x0123456789ABCDEF#64) i = 0x31#8 := by decide +kernel

theorem witness_TobinNeverFails : cwB.getLsbD 128 = true := by decide

theorem witness_ErrorResponsesCarryNoResult : rspStatus (F cwC) ≠ .ok := by decide +kernel

theorem witness_ZeroLatencyAnswersInTheSameCycle :
    let s := at' [] [Drive.issue cwA]
    s.slots = [] ∧ s.drive.cmdValid = true ∧ s.drive.cmdWord = some cwA := ⟨rfl, rfl, rfl⟩

theorem witness_PipelineEdgeMovesEverySlot :
    let s := at' [⟨true, F cwB⟩, ⟨true, F cwA⟩] [⟨false, true, some cwC⟩]
    s.slots ≠ [] ∧ s.drive = { rst := false, cmdValid := true, cmdWord := some cwC } ∧ 0 + 1 < s.slots.length := by
  exact ⟨List.cons_ne_nil _ _, rfl, by decide⟩

theorem witness_InvalidPortReadsAFreeValue : (at' [⟨false, 0#514⟩] []).rspValid = false := rfl

/-- Also for `EveryStepKeepsTheAccount`: the step is no reset edge. -/
theorem witness_StepRecordsTheValidPort : p4Cycle3.resets = false ∧ p4Cycle3.rspValid = true ∧ ∃ t, step p4Cycle3 = .next t :=
  ⟨rfl, rfl, _, rfl⟩

theorem witness_CommandFrame :
    let s : State := { at' [⟨true, F cwB⟩, ⟨true, F cwA⟩] [] with responses := [F cwC] }
    (∃ t, exec (decode cwD) s = .next t) ∧ 0 + 1 < s.stages ∧ 0 < s.responses.length ∧ s.slots ≠ [] :=
  ⟨⟨_, exec_decode _ _⟩, by decide, Nat.zero_lt_one, List.cons_ne_nil _ _⟩

theorem witness_CommandResponseEntersTheMachine : (at' [] []).slots = [] ∧ (at' [⟨false, 0#514⟩] []).slots ≠ [] :=
  ⟨rfl, List.cons_ne_nil _ _⟩

theorem witness_LatencyIsTheNumberOfStages :
    let s := at' [⟨false, 0#514⟩, ⟨false, 0#514⟩] [Drive.issue cwA, Drive.issue cwB, Drive.idle]
    s.inputs = Drive.issue cwA :: [Drive.issue cwB, Drive.idle] ∧
      ∀ d ∈ [Drive.issue cwB, Drive.idle].take (s.stages - 1), d.plain = true :=
  ⟨rfl, by decide⟩

theorem witness_ResetEdgeDropsTheCommand : p4Cycle5.slots ≠ [] ∧ (Drive.mk true true (some cwD)).rst = true ∧
    (Drive.mk true false none).rst = true ∧ (at' [] []).slots = [] := ⟨List.cons_ne_nil _ _, rfl, rfl, rfl⟩

theorem witness_ResetEdgeLosesWhatIsInFlight : p4Cycle5.resets = true ∧ ∃ t, step p4Cycle5 = .next t := ⟨rfl, _, rfl⟩

theorem witness_StepRunsTheDecodedCommand :
    (at' [⟨false, 0#514⟩] [Drive.issue cwA]).inputs = Drive.issue cwA :: [] ∧ (Drive.issue cwA).cmdValid = true ∧
      (Drive.issue cwA).cmdWord = some cwA ∧ (Drive.issue cwA).rst = false ∧
      (at' [] [⟨true, true, some cwA⟩]).slots = [] ∧
      decodeTableWord 136 0x1_00000000_00000000_80000000_00000000 = some (.tobin 0x8000000000000000#64) :=
  ⟨rfl, rfl, rfl, rfl, rfl, by decide⟩

/-- The refused case, and one that goes on although the word is undriven: the reset edge. -/
theorem witness_StepStopsOnlyOnAnUndrivenCommand :
    (at' [] [⟨false, true, none⟩]).resets = false ∧ (at' [] [⟨false, true, none⟩]).drive = ⟨false, true, none⟩ ∧
      (at' [⟨false, 0#514⟩] [⟨true, true, none⟩]).resets = true := ⟨rfl, rfl, rfl⟩

theorem witness_EveryStepKeepsResponsesGenuine : p4Cycle3.Inv ∧ ∃ t, step p4Cycle3 = .next t := by
  refine ⟨⟨fun x hx _ => ?_, by simp [p4Cycle3, at']⟩, _, rfl⟩
  simp only [p4Cycle3, at', List.mem_cons, List.not_mem_nil, or_false] at hx
  rcases hx with rfl | rfl
  · exact ⟨cwB, by dsimp only⟩
  · exact ⟨cwA, by dsimp only⟩

/-- Also for `EveryDepthGivesTheSameResponses`. -/
theorem witness_RunAnswersEveryCommandInOrder : ∀ d ∈ [Drive.issue cwA, Drive.idle, Drive.issue cwC], d.plain = true := by decide

theorem witness_OrderOfCommandsChangesNoResponse : [cwA, cwB].Perm [cwB, cwA] ∧ F cwA ≠ F cwB := by decide +kernel

theorem witness_InvalidPayloadsAreNeverSeen :
    let s := at' [⟨false, 0#514⟩, ⟨true, F cwA⟩] []
    let s' : State := { at' [⟨false, 1#514⟩, ⟨true, F cwA⟩] [] with freeTick := 5 }
    s.agrees s' ∧ s.slots ≠ s'.slots ∧ ∃ t, step s = .next t := by
  refine ⟨⟨?_, rfl, rfl⟩, ?_, _, rfl⟩
  · exact .cons ⟨rfl, fun h => nomatch h⟩ (.cons ⟨rfl, fun _ => rfl⟩ .nil)
  · intro h
    injection h with h
    injection h with _ h
    exact absurd h (by decide +kernel)

theorem witness_BusBytesHoldTheWords : (0 < 8 ∧ 8 * 16 + 0 < 129) ∧ (1 < 8 ∧ 8 * 64 + 1 < 514) := by decide

theorem witness_PseudoInstructionsDoWhatTheySay : (31#32).toNat ≤ 31 ∧ (32#32).toNat > 31 ∧ validRange 0#32 31#32 = true := by decide

theorem witness_DecimalLiteralsStandForTheirVectors :
    ((-2 : Int) ^ 31 ≤ -2 ^ 31 ∧ (-2 ^ 31 : Int) < 2 ^ 31) ∧ ((2 : Int) ^ 31 ≤ 2 ^ 32 - 1 ∧ (2 ^ 32 - 1 : Int) < 2 ^ 32) ∧
      (2 : Int) ^ 32 ≤ 2 ^ 32 := by decide

/-- `1e308` is below the bound of the finite values and `1e309` is not. -/
theorem witness_FloatingLiteralsRoundToNearestEven_literal :
    ((1 : Nat) : ℚ) * (10 : ℚ) ^ (308 : Int) < 2 ^ 1024 - 2 ^ 970 ∧
      (2 : ℚ) ^ 1024 - 2 ^ 970 ≤ ((1 : Nat) : ℚ) * (10 : ℚ) ^ (309 : Int) := by
  have below : 10 ^ 308 + 2 ^ 970 < 2 ^ 1024 := by decide +kernel
  have above : 2 ^ 1024 < 10 ^ 309 := by decide +kernel
  have below' : (10 : ℚ) ^ 308 + 2 ^ 970 < 2 ^ 1024 := by exact_mod_cast below
  have above' : (2 : ℚ) ^ 1024 < 10 ^ 309 := by exact_mod_cast above
  rw [Nat.cast_one, one_mul, one_mul, show (308 : Int) = ((308 : Nat) : Int) from rfl,
    show (309 : Int) = ((309 : Nat) : Int) from rfl, zpow_natCast, zpow_natCast]
  exact ⟨lt_sub_iff_add_lt.2 below', (sub_le_self _ (by positivity)).trans above'.le⟩

theorem witness_FloatingLiteralTextsStandForTheirDecimals :
    (([] : Text), false) ∈ [(([] : Text), false), (['+'], false), (['-'], true)] ∧ ['E'] ∈ [['e'], ['E']] ∧
      (['-'], (-1 : Int)) ∈ [([], (1 : Int)), (['+'], 1), (['-'], -1)] ∧ ['0'] ≠ [] ∧
      ∀ c ∈ ['0'] ++ ['9'] ++ ['2'], '0' ≤ c ∧ c ≤ '9' :=
  ⟨by simp, by simp, by simp, by simp, by
    simp only [List.cons_append, List.nil_append, List.forall_mem_cons, List.not_mem_nil, false_imp_iff, implies_true]
    decide⟩

/-- One third rounds within range; 0 and the largest finite pattern are patterns to compare with. -/
theorem witness_FloatingLiteralsRoundToNearestEven :
    0 < 3 ∧ nearestBinary64 1 3 < 0x7FF0000000000000 ∧ 0 < 0x7FF0000000000000 ∧ 0x7FEFFFFFFFFFFFFF < 0x7FF0000000000000 := by
  decide +kernel

/-- The line `$a = INSERT 2728, 655, 3, 8`. -/
def lineA : AsmLine := { bind := some ['a'], command := .insert (.lit 2728#32) (.lit 655#32) (.lit 3#32) (.lit 8#32) }

/-- A host before its first command at a drained machine of two stages. -/
def hostAtTwoStages : HostRun := HostRun.start (at' [⟨false, 0#514⟩, ⟨false, 0#514⟩] [])

/-- After one wait of two the response is there in the next cycle, and after none it is not. -/
theorem witness_ChainingWaitsForTheStages :
    (∀ x ∈ hostAtTwoStages.core.slots, x.v = false) ∧ hostAtTwoStages.results.length = hostAtTwoStages.issued.length ∧
      (1 + 1 = max hostAtTwoStages.core.stages 1 ∧ 0 + 1 < max hostAtTwoStages.core.stages 1) ∧
      (∃ h, runActions (.issue lineA :: List.replicate 1 .wait) hostAtTwoStages = .ok h) ∧
      ∃ h, runActions (.issue lineA :: List.replicate 0 .wait) hostAtTwoStages = .ok h :=
  ⟨by decide, rfl, by decide, ⟨_, rfl⟩, ⟨_, rfl⟩⟩

/-- The line `TOBIN $a:$a` after `lineA`. -/
def linePair : AsmLine := { bind := none, command := .tobin (.pair ['a'] ['a']) }

/-- `$a` is the `RES` 2680 of V1 (R86), so the pair is 0x00000A78_00000A78. -/
theorem witness_HostProgramEndsWithItsResponses_words : ProgramForms [lineA, linePair]
    [cwA, 0x1_00000000_00000000_00000A78_00000A78#129] := by
  refine ⟨rfl, fun k line cw hl hw => ?_⟩
  match k with
  | 0 =>
    cases hl
    cases hw
    exact ⟨_, _, _, _, rfl, rfl, rfl, rfl, by decide⟩
  | 1 =>
    cases hl
    cases hw
    have ha : NameStandsFor [lineA, linePair] [cwA, 0x1_00000000_00000000_00000A78_00000A78#129] 1 ['a'] 2680#32 :=
      ⟨0, cwA, ⟨by decide, ⟨lineA, rfl, rfl⟩, fun i _ h0 h1 => absurd h1 (by omega)⟩, rfl, by decide +kernel⟩
    exact ⟨_, ⟨_, _, ha, ha, rfl⟩, by decide⟩
  | _ + 2 => cases hl

/-- Also for `HostProgramFinalState`: the line binds `$a`. -/
theorem witness_HostProgramEndsWithItsResponses :
    (∀ x ∈ (at' [⟨false, 0#514⟩] []).slots, x.v = false) ∧ ∃ h, runProgram [lineA] (at' [⟨false, 0#514⟩] []) = .ok h :=
  ⟨by decide, _, rfl⟩

end Sys2Proof.Tests
end

section
/-! What runs without reset do to the account of responses, and how they drain the pipeline (10_state.md R44,
70_reset_and_hazards.md R166). -/

namespace Sys2Proof.Machine

/-! ### The current cycle -/

/-- What is owed for the inputs is owed for the current cycle's command and then for the inputs after it. -/
theorem owedFor_inputs {s : State} (h : s.drive.undriven = false) :
    owedFor s.inputs = delivered s.commandSlot ++ owedFor s.inputs.tail := by
  unfold State.commandSlot
  cases hi : s.inputs with
  | nil => simp [State.drive, hi, Drive.idle, owedFor, delivered]
  | cons d ds =>
    have hd : s.drive = d := by simp [State.drive, hi]
    rw [hd] at h ⊢
    obtain ⟨rst, v, w⟩ := d
    cases v with
    | false => simp [owedFor, delivered]
    | true =>
      cases w with
      | none => simp [Drive.undriven] at h
      | some cw => simp [owedFor, delivered, drivenResponse]

/-- A move of the pipeline keeps the account: no response is lost, reordered or repeated. -/
theorem account_clockCycle {s : State} (h : s.drive.undriven = false) :
    (clockCycle s.commandSlot { s with inputs := s.inputs.tail }).account = s.account := by
  simp only [State.account, clockCycle_responses, clockCycle_slots, clockCycle_inputs]
  calc s.responses ++ delivered (portSlot s.commandSlot s.slots) ++ inFlight (shiftSlots s.commandSlot s.slots) ++
        owedFor s.inputs.tail
      = s.responses ++ (inFlight s.slots ++ delivered s.commandSlot) ++ owedFor s.inputs.tail := by
        rw [List.append_assoc s.responses, delivered_append_inFlight]
    _ = s.responses ++ inFlight s.slots ++ owedFor s.inputs := by
        rw [owedFor_inputs h]
        simp only [List.append_assoc]

theorem Drive.undriven_of_plain {d : Drive} (h : d.plain = true) : d.undriven = false := by
  simp only [Drive.plain, Bool.and_eq_true, Bool.not_eq_true'] at h
  exact h.2

/-- Past its inputs the host drives idle cycles, which are plain. -/
theorem drive_plain {s : State} (h : ∀ d ∈ s.inputs, d.plain = true) : s.drive.plain = true := by
  unfold State.drive
  cases hi : s.inputs with
  | nil => rfl
  | cons d ds => exact h d (by simp [hi])

/-! ### Runs -/

/-- A run over plain inputs goes on, keeps the account and the depth, and takes one drive per cycle. -/
theorem run_plain (k : Nat) {s : State} (h : ∀ d ∈ s.inputs, d.plain = true) :
    ∃ t, Sys2Proof.core.run k s = .next t ∧ t.account = s.account ∧ t.stages = s.stages ∧ t.inputs = s.inputs.drop k := by
  induction k generalizing s with
  | zero => exact ⟨s, run_zero s, rfl, rfl, rfl⟩
  | succ k ih =>
    have hp := drive_plain h
    obtain ⟨t, hrun, hacc, hst, hin⟩ := ih (s := clockCycle s.commandSlot { s with inputs := s.inputs.tail })
      fun d hd => h d (List.mem_of_mem_tail hd)
    refine ⟨t, (run_succ k (step_of_plain hp)).trans hrun, ?_, ?_, ?_⟩
    · rw [hacc, account_clockCycle (Drive.undriven_of_plain hp)]
    · rw [hst]
      simp [State.stages]
    · rw [hin]
      simp

/-- An edge that takes in an invalid entry makes the run of invalid slots at the front one longer. -/
theorem shiftSlots_take_invalid {new : Slot} {slots : List Slot} {j : Nat} (hnew : new.v = false)
    (h : ∀ x ∈ slots.take j, x.v = false) : ∀ x ∈ (shiftSlots new slots).take (j + 1), x.v = false := by
  intro x hx
  rw [shiftSlots, List.take_take, Nat.min_comm, ← List.take_take, List.take_succ_cons] at hx
  rcases List.mem_cons.1 (List.mem_of_mem_take hx) with rfl | hx
  · exact hnew
  · exact h x hx

/-- Every idle cycle past the inputs empties one more slot, from the front. -/
theorem run_idle_take_invalid (k j : Nat) {s t : State} (hin : s.inputs = []) (h : ∀ x ∈ s.slots.take j, x.v = false)
    (hrun : Sys2Proof.core.run k s = .next t) : ∀ x ∈ t.slots.take (j + k), x.v = false := by
  induction k generalizing s j with
  | zero =>
    rw [run_zero] at hrun
    injection hrun with hrun
    exact hrun ▸ h
  | succ k ih =>
    have hstep := step_of_plain (drive_plain (s := s) (by simp [hin]))
    rw [run_succ k hstep] at hrun
    have hnew : s.commandSlot.v = false := by simp [State.commandSlot, State.drive, hin, Drive.idle]
    rw [← Nat.succ_add_eq_add_succ]
    exact ih (j + 1) (by simp [hin]) (shiftSlots_take_invalid hnew h) hrun

/-- As many idle cycles as there are slots leave nothing in flight. -/
theorem run_idle_drains {s t : State} (hin : s.inputs = []) (hst : t.stages = s.stages)
    (hrun : Sys2Proof.core.run s.stages s = .next t) : inFlight t.slots = [] := by
  have h := run_idle_take_invalid s.stages 0 hin (by simp) hrun
  rw [Nat.zero_add, ← hst, State.stages, List.take_length] at h
  exact inFlight_of_invalid h

/-- A run over plain inputs and then one idle cycle per slot delivers the whole account (70_reset_and_hazards.md R166). -/
theorem run_plain_drains {s : State} (h : ∀ d ∈ s.inputs, d.plain = true) :
    ∃ t, Sys2Proof.core.run (s.inputs.length + s.stages) s = .next t ∧ t.responses = s.account ∧ t.inputs = [] ∧
      inFlight t.slots = [] := by
  obtain ⟨u, hrunu, haccu, hstu, hinu⟩ := run_plain s.inputs.length h
  rw [List.drop_length] at hinu
  obtain ⟨t, hrunt, hacct, hstt, hint⟩ := run_plain s.stages (s := u) (by simp [hinu])
  rw [hinu, List.drop_nil] at hint
  have hflight : inFlight t.slots = [] := run_idle_drains hinu hstt (hstu ▸ hrunt)
  refine ⟨t, (run_add _ _ hrunu).trans hrunt, ?_, hint, hflight⟩
  calc t.responses = t.account := by simp [State.account, hflight, hint, owedFor]
    _ = s.account := hacct.trans haccu

/-- From reset the account is what is owed for the inputs, whatever the depth (00_scope.md R9). -/
theorem run_resetWith_drains (n : Nat) {inputs : List Drive} (h : ∀ d ∈ inputs, d.plain = true) :
    ∃ t, Sys2Proof.core.run (inputs.length + n) { State.resetWith n with inputs := inputs } = .next t ∧
      t.responses = owedFor inputs := by
  obtain ⟨t, hrun, hresp, -, -⟩ := run_plain_drains (s := { State.resetWith n with inputs := inputs }) h
  simp only [State.stages, resetWith_slots, clearedSlots_length] at hrun
  exact ⟨t, hrun, by simp [hresp, State.account]⟩

/-- Settles O39: each of the two runs delivers its whole account, which does not depend on the depth. -/
theorem everyDepthGivesTheSameResponses : Obligations.EveryDepthGivesTheSameResponses := by
  intro n m inputs h
  obtain ⟨t, hrunt, hrespt⟩ := run_resetWith_drains n h
  obtain ⟨u, hrunu, hrespu⟩ := run_resetWith_drains m h
  exact ⟨t, u, hrunt, hrunu, hrespt.trans hrespu.symm, hrespt⟩

end Sys2Proof.Machine
end

section
/-! What a decimal integer stands for in a 32-bit data field (00_scope.md R13, 30_encoding.md R83). -/

namespace Sys2Proof.Machine

theorem wordOfInt_of_fits {i : Int} (h : -2 ^ 31 ≤ i ∧ i < 2 ^ 32) : wordOfInt i = .ok (BitVec.ofInt 32 i) :=
  if_pos (by omega)

theorem wordOfInt_of_not_fits {i : Int} (h : i < -2 ^ 31 ∨ 2 ^ 32 ≤ i) : wordOfInt i = .error .literalDoesNotFit :=
  if_neg (by omega)

/-- Settles O46, range by range: within the field the vector is the integer modulo `2^32`, whose signed value is the integer below
`2^31` and whose unsigned value is the integer from there on. -/
theorem decimalLiteralsStandForTheirVectors : Obligations.DecimalLiteralsStandForTheirVectors := by
  intro i
  refine ⟨fun h => ?_, fun h => ?_, wordOfInt_of_not_fits⟩
  · exact ⟨_, wordOfInt_of_fits (by omega), BitVec.toInt_ofInt_eq_self (by decide) h.1 h.2⟩
  · refine ⟨_, wordOfInt_of_fits (by omega), ?_⟩
    have hmod : i % 2 ^ 32 = i := Int.emod_eq_of_lt (by omega) h.2
    rw [BitVec.toNat_ofInt, Int.toNat_of_nonneg (by omega)]
    exact hmod

end Sys2Proof.Machine
end

section
/-! Decoding an encoded command, and the one cycle in which a command is executed (10_state.md R36, 30_encoding.md R84). -/

namespace Sys2Proof

theorem insertSlot_encode_insert (src ins ridx lidx : Word) :
    insertSlot (encode (.insert src ins ridx lidx)) 0 = src ∧ insertSlot (encode (.insert src ins ridx lidx)) 1 = ins ∧
      insertSlot (encode (.insert src ins ridx lidx)) 2 = ridx ∧ insertSlot (encode (.insert src ins ridx lidx)) 3 = lidx := by
  refine ⟨?_, ?_, ?_, ?_⟩ <;>
  · ext k hk
    rw [← BitVec.getLsbD_eq_getElem, insertSlot_getLsbD, encode_insert_getLsbD, ← BitVec.getLsbD_eq_getElem]
    grind

theorem tobinValue_encode_tobin (val : DWord) : tobinValue (encode (.tobin val)) = val := by
  ext k hk
  rw [← BitVec.getLsbD_eq_getElem, tobinValue_getLsbD, encode_tobin_getLsbD, ← BitVec.getLsbD_eq_getElem]
  simp [hk]

@[simp] theorem decode_encode (i : Instr) : decode (encode i) = i := by
  cases i with
  | insert src ins ridx lidx =>
    obtain ⟨hsrc, hins, hridx, hlidx⟩ := insertSlot_encode_insert src ins ridx lidx
    rw [decode_of_opcode_zero (opcodeBit_encode_insert src ins ridx lidx), hsrc, hins, hridx, hlidx]
  | tobin val => rw [decode_of_opcode_one (opcodeBit_encode_tobin val), tobinValue_encode_tobin]

end Sys2Proof

namespace Sys2Proof.Machine

/-- Executing a command is one cycle that issues its response, in every state. -/
theorem exec_eq (i : Instr) (s : State) : exec i s = .next (issueCycle (commandResponse i) s) := by
  have h := exec_decode (encode i) s
  rwa [decode_encode] at h

/-- Settles O21: both executions are the same use of `exec_decode`. -/
theorem responseDependsOnlyOnTheCommandWord : Obligations.ResponseDependsOnlyOnTheCommandWord :=
  fun cw s s' => ⟨exec_decode cw s, exec_decode cw s'⟩

/-- Settles O27: with no slots the port carries the new entry itself, with slots the new entry goes into the first. -/
theorem commandResponseEntersTheMachine : Obligations.CommandResponseEntersTheMachine := by
  intro i s
  exact ⟨_, exec_eq i s, fun h => by simp [h, delivered], fun h => shiftSlots_head _ h⟩

/-- Settles O28, field by field of the cycle that issues the command's response. -/
theorem commandFrame : Obligations.CommandFrame := by
  intro i s t h
  rw [exec_eq] at h
  obtain rfl : issueCycle (commandResponse i) s = t := by injection h
  refine ⟨rfl, shiftSlots_length _ _, rfl, fun k hk => shiftSlots_succ _ hk, fun k hk => ?_, fun hs => ?_⟩
  · exact List.getElem?_append_left hk
  · rw [issueCycle_responses, portSlot_eq_getLast _ hs]

end Sys2Proof.Machine
end

section
/-! What the port shows and what a step does in a cycle that is no reset edge (10_state.md R38, R39, R42, R44). -/

namespace Sys2Proof.Machine

/-! ### The drive of the cycle -/

theorem drive_of_inputs {s : State} {d : Drive} {rest : List Drive} (h : s.inputs = d :: rest) : s.drive = d := by
  simp [State.drive, h]

theorem resets_eq_false {s : State} (h : s.drive.rst = false ∨ s.slots = []) : s.resets = false := by
  rcases h with h | h <;> simp [State.resets, h]

theorem undriven_eq_false_of_word {d : Drive} {cw : CmdWord} (h : d.cmdWord = some cw) : d.undriven = false := by
  simp [Drive.undriven, h]

theorem undriven_eq_true_iff {d : Drive} : d.undriven = true ↔ d.cmdValid = true ∧ d.cmdWord = none := by
  simp [Drive.undriven]

theorem commandSlot_of_word {s : State} {cw : CmdWord} (h : s.drive.cmdWord = some cw) :
    s.commandSlot = { v := s.drive.cmdValid, w := F cw } := by
  simp [State.commandSlot, drivenResponse, h]

/-! ### The port -/

theorem rspWord_of_valid {s : State} (h : s.rspValid = true) : s.rspWord = s.rspWire := if_pos h

/-- Settles O25: `rspWord` shows the wire only in a cycle with `rsp_valid = 1`. -/
theorem invalidPortReadsAFreeValue : Obligations.InvalidPortReadsAFreeValue := by
  intro s h
  exact if_neg (by simp [h])

/-- In the zero-latency form the port carries the cycle's own command. -/
theorem port_of_no_slots {s : State} (h : s.slots = []) : portSlot s.commandSlot s.slots = s.commandSlot := by
  rw [h, portSlot_nil]

/-! ### The step -/

/-- A cycle without a reset edge that leaves no command undriven moves the pipeline. -/
theorem step_of_move {s : State} (hr : s.resets = false) (hu : s.drive.undriven = false) :
    step s = .next (clockCycle s.commandSlot { s with inputs := s.inputs.tail }) := by
  rw [step_eq, if_neg (by simp [hr]), if_neg (by simp [hu])]

/-- A cycle without a reset edge that issues a driven word executes the command it decodes to. -/
theorem step_of_issue {s : State} {cw : CmdWord} (hr : s.resets = false) (hv : s.drive.cmdValid = true)
    (hw : s.drive.cmdWord = some cw) : step s = exec (decode cw) { s with inputs := s.inputs.tail } := by
  rw [step_of_move hr (undriven_eq_false_of_word hw), commandSlot_of_word hw, hv, exec_decode, issueCycle]

/-- Settles O23: with no slots the port carries the cycle's own command, and an issuing cycle executes it. -/
theorem zeroLatencyAnswersInTheSameCycle : Obligations.ZeroLatencyAnswersInTheSameCycle := by
  intro s hs
  have hvalid : s.rspValid = s.drive.cmdValid := by rw [State.rspValid, port_of_no_slots hs, State.commandSlot]
  have hwire : ∀ cw, s.drive.cmdWord = some cw → s.rspWire = F cw := fun cw hw => by
    rw [State.rspWire, port_of_no_slots hs, commandSlot_of_word hw]
  refine ⟨hvalid, hwire, fun cw hv hw => ⟨?_, ?_⟩⟩
  · rw [rspWord_of_valid (hvalid.trans hv), hwire cw hw]
  · have hstep := step_of_issue (resets_eq_false (.inr hs)) hv hw
    rw [exec_decode] at hstep
    exact ⟨_, hstep, by simp [hs, delivered], by simp [hs]⟩

/-- Settles O24: the edge is one `shiftSlots` that takes in the cycle's command, and the port is the last slot. -/
theorem pipelineEdgeMovesEverySlot : Obligations.PipelineEdgeMovesEverySlot := by
  intro s v cw hs hd
  have hport := portSlot_eq_getLast s.commandSlot hs
  have hstep := step_of_move (s := s) (resets_eq_false (.inl (by rw [hd]))) (undriven_eq_false_of_word (cw := cw) (by rw [hd]))
  rw [commandSlot_of_word (cw := cw) (by rw [hd]), hd] at hstep
  exact ⟨congrArg Slot.v hport, congrArg Slot.w hport, _, hstep, shiftSlots_length _ _, shiftSlots_head _ hs,
    fun k hk => shiftSlots_succ _ hk⟩

/-- A number that the decoder reads as a command is a command word that decodes to it. -/
theorem tableCommandWord_of_decodeTableWord {nbits w : Nat} {i : Instr} (h : decodeTableWord nbits w = some i) :
    ∃ cw, tableCommandWord nbits w = .ok cw ∧ decode cw = i := by
  unfold decodeTableWord at h
  cases hw : tableCommandWord nbits w with
  | ok cw => exact ⟨cw, rfl, by simpa [hw] using h⟩
  | error e => simp [hw] at h

/-- Settles O33: both clauses are cycles that issue a driven word without a reset edge. -/
theorem stepRunsTheDecodedCommand : Obligations.StepRunsTheDecodedCommand := by
  refine ⟨fun s d cw rest hin hv hw hr => ?_, fun s nbits w i h => ?_⟩
  · have hd := drive_of_inputs hin
    rw [step_of_issue (resets_eq_false (by rwa [hd])) (by rwa [hd]) (by rwa [hd]), hin, List.tail_cons]
  · obtain ⟨cw, hcw, rfl⟩ := tableCommandWord_of_decodeTableWord h
    have hd : (s.withFetchWord nbits w).drive = Drive.issue cw := by
      simp [State.withFetchWord, State.drive, hcw, Drive.issue, Except.toOption]
    exact step_of_issue (resets_eq_false (.inl (by rw [hd]; rfl))) (by rw [hd]; rfl) (by rw [hd]; rfl)

/-- Settles O34: a step that is neither a reset edge nor refused moves the pipeline. -/
theorem stepStopsOnlyOnAnUndrivenCommand : Obligations.StepStopsOnlyOnAnUndrivenCommand := by
  intro s
  refine ⟨fun ⟨hr, hu⟩ => ?_, fun h => ?_⟩
  · rw [step_eq, if_neg (by simp [hr]), if_pos (undriven_eq_true_iff.2 hu)]
  · cases hr : s.resets with
    | true => exact ⟨_, by rw [step_eq, if_pos hr]⟩
    | false =>
      have hu : s.drive.undriven = false := by
        rw [← Bool.not_eq_true, undriven_eq_true_iff]
        exact fun hu => h ⟨hr, hu⟩
      exact ⟨_, step_of_move hr hu⟩

/-- Settles O38: the run drains the pipeline, and what it has delivered is the account of its first state. -/
theorem runAnswersEveryCommandInOrder : Obligations.RunAnswersEveryCommandInOrder :=
  fun _ h => run_plain_drains h

/-- Settles O30: the port of the pipelined form is one of the cleared slots. -/
theorem resetClearsEveryValidBit : Obligations.ResetClearsEveryValidBit := by
  intro n
  refine ⟨clearedSlots_length 0 n, fun _ => clearedSlots_invalid, rfl, fun inputs hn => ?_, rfl⟩
  have hne : clearedSlots 0 n ≠ [] := List.ne_nil_of_length_pos (by rwa [clearedSlots_length])
  rw [State.rspValid, resetWith_slots, portSlot_eq_getLast _ hne]
  exact clearedSlots_invalid (List.getLast_mem hne)

end Sys2Proof.Machine
end

section
/-! The invariant of every reachable state: whatever is valid or was received is `F` of a command word (10_state.md R40). -/

namespace Sys2Proof.Machine

/-- A reset edge delivers what stands on the port when no command does: the last slot, if there is one (log entry 7). -/
theorem resetCycle_delivered (w : RspWord) (slots : List Slot) :
    (slots.getLast?.map delivered).getD [] = delivered (portSlot { v := false, w := w } slots) := by
  rw [portSlot]
  cases slots.getLast? <;> rfl

/-- The command slot of a cycle that leaves no command undriven is `F` of the word on the port, if it is valid. -/
theorem commandSlot_genuine {s : State} (hu : s.drive.undriven = false) (hv : s.commandSlot.v = true) :
    ∃ cw, s.commandSlot.w = F cw := by
  cases hw : s.drive.cmdWord with
  | some cw => exact ⟨cw, by rw [commandSlot_of_word hw]⟩
  | none => simp [undriven_eq_true_iff.2 ⟨hv, hw⟩] at hu

/-- Recording the port keeps the responses genuine, if the new entry and the slots are. -/
theorem responses_genuine_of_port {new : Slot} {s : State} (hs : s.Inv) (hnew : new.v = true → ∃ cw, new.w = F cw) :
    ∀ w ∈ s.responses ++ delivered (portSlot new s.slots), ∃ cw, w = F cw := by
  obtain ⟨hslots, hresp⟩ := hs
  intro w hw
  rcases List.mem_append.1 hw with hw | hw
  · exact hresp w hw
  · obtain ⟨hv, rfl⟩ := mem_delivered.1 hw
    rcases portSlot_mem new s.slots with h | h
    · rw [h] at hv ⊢
      exact hnew hv
    · exact hslots _ h hv

theorem inv_clockCycle {new : Slot} {s : State} (hs : s.Inv) (hnew : new.v = true → ∃ cw, new.w = F cw) :
    (clockCycle new s).Inv := by
  refine ⟨fun x hx hv => ?_, responses_genuine_of_port hs hnew⟩
  rcases mem_shiftSlots hx with rfl | hx
  · exact hnew hv
  · exact hs.1 x hx hv

theorem slots_genuine_of_cleared (tick n : Nat) : ∀ x ∈ clearedSlots tick n, x.v = true → ∃ cw, x.w = F cw := by
  intro x hx hv
  simp [clearedSlots_invalid hx] at hv

theorem inv_resetCycle {s : State} (hs : s.Inv) : (resetCycle s).Inv := by
  refine ⟨slots_genuine_of_cleared _ _, ?_⟩
  rw [resetCycle_responses, resetCycle_delivered 0#514]
  exact responses_genuine_of_port hs (by simp)

theorem inv_resetWith (n : Nat) : (State.resetWith n).Inv :=
  ⟨slots_genuine_of_cleared 0 n, by simp⟩

/-- Settles O35: right after reset no slot is valid and nothing has been received. -/
theorem resetHoldsOnlyResponses : Obligations.ResetHoldsOnlyResponses :=
  ⟨inv_resetWith _, inv_resetWith⟩

/-- Settles O36: a reset edge takes in nothing valid, and a move of the pipeline takes in `F` of the word on the port. -/
theorem everyStepKeepsResponsesGenuine : Obligations.EveryStepKeepsResponsesGenuine := by
  intro s t hs h
  rcases step_next h with ⟨-, rfl⟩ | ⟨-, hu, rfl⟩
  · exact inv_resetCycle hs
  · exact inv_clockCycle hs (commandSlot_genuine hu)

end Sys2Proof.Machine
end

section
/-! States a host cannot tell apart stay so: the payload of an invalid slot is never seen (10_state.md R42, R43). -/

namespace Sys2Proof.Machine

/-! ### Slots -/

theorem Slot.agrees.delivered_eq {a b : Slot} (h : a.agrees b) : delivered a = delivered b := by
  obtain ⟨hv, hw⟩ := h
  unfold delivered
  rw [← hv]
  cases ha : a.v with
  | true => simp [hw ha]
  | false => rfl

theorem Slot.agrees_of_invalid {a b : Slot} (ha : a.v = false) (hb : b.v = false) : a.agrees b :=
  ⟨ha.trans hb.symm, by simp [ha]⟩

theorem portSlot_cons (new x : Slot) (slots : List Slot) : portSlot new (x :: slots) = portSlot x slots := by
  simp [portSlot, List.getLast?_cons]

theorem agrees_portSlot {a b : Slot} {slots slots' : List Slot} (hab : a.agrees b) (h : List.Forall₂ Slot.agrees slots slots') :
    (portSlot a slots).agrees (portSlot b slots') := by
  induction h generalizing a b with
  | nil => exact hab
  | cons hxy _ ih =>
    rw [portSlot_cons, portSlot_cons]
    exact ih hxy

theorem agrees_shiftSlots {a b : Slot} {slots slots' : List Slot} (hab : a.agrees b)
    (h : List.Forall₂ Slot.agrees slots slots') : List.Forall₂ Slot.agrees (shiftSlots a slots) (shiftSlots b slots') := by
  rw [shiftSlots, shiftSlots, h.length_eq]
  exact List.forall₂_take _ (.cons hab h)

theorem agrees_clearedSlots (tick tick' n : Nat) : List.Forall₂ Slot.agrees (clearedSlots tick n) (clearedSlots tick' n) := by
  rw [clearedSlots, clearedSlots, List.forall₂_map_left_iff, List.forall₂_map_right_iff, List.forall₂_same]
  exact fun _ _ => Slot.agrees_of_invalid rfl rfl

/-! ### States -/

theorem agrees_commandSlot {s s' : State} (hd : s.drive = s'.drive) (hu : s.drive.undriven = false) :
    s.commandSlot.agrees s'.commandSlot := by
  cases hw : s.drive.cmdWord with
  | some cw =>
    rw [commandSlot_of_word hw, commandSlot_of_word (hd ▸ hw), hd]
    exact ⟨rfl, fun _ => rfl⟩
  | none =>
    have hv : s.drive.cmdValid = false := by simpa [Drive.undriven, hw] using hu
    exact Slot.agrees_of_invalid hv ((congrArg Drive.cmdValid hd).symm.trans hv)

theorem State.agrees.drive_eq {s s' : State} (h : s.agrees s') : s.drive = s'.drive := by
  rw [State.drive, State.drive, h.2.1]

theorem State.agrees.resets_eq {s s' : State} (h : s.agrees s') : s.resets = s'.resets := by
  have hempty : s.slots.isEmpty = s'.slots.isEmpty := by
    rw [Bool.eq_iff_iff, List.isEmpty_iff_length_eq_zero, List.isEmpty_iff_length_eq_zero, h.1.length_eq]
  rw [State.resets, State.resets, h.drive_eq, hempty]

theorem State.agrees.tail {s s' : State} (h : s.agrees s') :
    State.agrees { s with inputs := s.inputs.tail } { s' with inputs := s'.inputs.tail } := by
  obtain ⟨hslots, hin, hresp⟩ := h
  exact ⟨hslots, congrArg List.tail hin, hresp⟩

theorem agrees_clockCycle {a b : Slot} {s s' : State} (hab : a.agrees b) (h : s.agrees s') :
    (clockCycle a s).agrees (clockCycle b s') := by
  obtain ⟨hslots, hin, hresp⟩ := h
  refine ⟨agrees_shiftSlots hab hslots, hin, ?_⟩
  rw [clockCycle_responses, clockCycle_responses, hresp, (agrees_portSlot hab hslots).delivered_eq]

theorem agrees_resetCycle {s s' : State} (h : s.agrees s') : (resetCycle s).agrees (resetCycle s') := by
  obtain ⟨hslots, hin, hresp⟩ := h
  refine ⟨?_, hin, ?_⟩
  · rw [resetCycle_slots, resetCycle_slots, hslots.length_eq]
    exact agrees_clearedSlots _ _ _
  · have hport := agrees_portSlot (a := ⟨false, 0#514⟩) ⟨rfl, fun _ => rfl⟩ hslots
    rw [resetCycle_responses, resetCycle_responses, hresp, resetCycle_delivered 0#514, resetCycle_delivered 0#514,
      hport.delivered_eq]

/-- Settles O41: the two states take the same kind of step, and each kind keeps the agreement. -/
theorem invalidPayloadsAreNeverSeen : Obligations.InvalidPayloadsAreNeverSeen := by
  intro s s' t hag h
  rcases step_next h with ⟨hr, rfl⟩ | ⟨hr, hu, rfl⟩
  · refine ⟨_, ?_, agrees_resetCycle hag.tail⟩
    rw [step_eq, if_pos (hag.resets_eq ▸ hr)]
  · have hstep := step_of_move (hag.resets_eq ▸ hr) (hag.drive_eq ▸ hu)
    exact ⟨_, hstep, agrees_clockCycle (agrees_commandSlot hag.drive_eq hu) hag.tail⟩

end Sys2Proof.Machine
end

section
/-! The account of responses over one step, and the responses of reordered commands (20_memory.md R62, 70_reset_and_hazards.md
R166). -/

namespace Sys2Proof.Machine

/-- Settles O37: a step that is no reset edge is a move of the pipeline, and that keeps the account. -/
theorem everyStepKeepsTheAccount : Obligations.EveryStepKeepsTheAccount := by
  intro s t hr h
  rcases step_next h with ⟨hreset, -⟩ | ⟨-, hu, rfl⟩
  · simp [hr] at hreset
  · exact account_clockCycle hu

/-- A host that issues one command a cycle is owed the response of each. -/
theorem owedFor_map_issue (cws : List CmdWord) : owedFor (cws.map Drive.issue) = cws.map F := by
  induction cws with
  | nil => rfl
  | cons cw cws ih => exact congrArg (F cw :: ·) ih

/-- From reset, a host that issues one command a cycle receives the response of each, in order. -/
theorem run_issues (n : Nat) (cws : List CmdWord) :
    ∃ t, Sys2Proof.core.run (cws.length + n) { State.resetWith n with inputs := cws.map Drive.issue } = .next t ∧
      t.responses = cws.map F := by
  have hplain : ∀ d ∈ cws.map Drive.issue, d.plain = true := List.forall_mem_map.2 fun _ _ => rfl
  obtain ⟨t, hrun, hresp⟩ := run_resetWith_drains n hplain
  exact ⟨t, by rwa [List.length_map] at hrun, hresp.trans (owedFor_map_issue cws)⟩

/-- Settles O40: each run receives `F` of its commands in order, and mapping `F` keeps a permutation. -/
theorem orderOfCommandsChangesNoResponse : Obligations.OrderOfCommandsChangesNoResponse := by
  intro n cws cws' hperm
  obtain ⟨t, hrunt, hrespt⟩ := run_issues n cws
  obtain ⟨u, hrunu, hrespu⟩ := run_issues n cws'
  exact ⟨t, u, hrunt, hrunu, hrespt, hrespu, by rw [hrespt, hrespu]; exact hperm.map F⟩

end Sys2Proof.Machine
end

section
/-! The bytes of the words on a bus (20_memory.md R58). -/

namespace Sys2Proof.Machine

/-- Bytes beside free high bits still hold the low word, bit by bit. -/
theorem bytesLow_append_getLsbD {p width n j k : Nat} (pad : BitVec p) (v : BitVec width) (hn : width ≤ 8 * n) (hk : k < 8)
    (hjk : 8 * j + k < width) : ((bytesLow n (pad ++ v)).getD j 0#8).getLsbD k = v.getLsbD (8 * j + k) := by
  rw [bytesLow_getLsbD _ (by omega) hk, BitVec.getLsbD_append, if_pos hjk]

/-- Bytes packed into DATA are the bytes of DATA, when they fill it. -/
theorem bytesLow_packBytes {bs : List Byte} (h : bs.length = 64) : bytesLow 64 (packBytes bs) = bs := by
  apply List.ext_getElem
  · rw [bytesLow_length, h]
  · intro i hi hi'
    have hbyte := dataByte_packBytes bs (h ▸ hi')
    rw [List.getD_eq_getElem _ _ hi'] at hbyte
    simpa [bytesLow, dataByte] using hbyte

theorem commandResponse_tobin (val : DWord) : commandResponse (.tobin val) = tobinResponse val := by
  rw [commandResponse, F, decode_encode]

/-- Settles O42: byte by byte for the words, and for a TOBIN because its 64 character codes fill DATA. -/
theorem busBytesHoldTheWords : Obligations.BusBytesHoldTheWords := by
  refine ⟨fun cw j k hk hjk => ?_, fun rw j k hk hjk => ?_, fun cw => ⟨rfl, ?_⟩, fun rw => ⟨rfl, ?_⟩, fun val => ?_⟩
  · exact bytesLow_append_getLsbD Config.cmdPad cw (by decide) hk hjk
  · exact bytesLow_append_getLsbD Config.rspPad rw (by decide) hk hjk
  · exact bytesLow_length 17 _
  · exact bytesLow_length 65 _
  · rw [commandResponse_tobin, tobinResponse, rspData_respond]
    exact bytesLow_packBytes (by rw [List.length_map, binaryString_length])

/-- Joining the bytes of a value gives the value back, when the bytes reach all of it. -/
theorem joinBytes_bytesLow {width n : Nat} (v : BitVec width) (h : width ≤ 8 * n) : joinBytes width (bytesLow n v) = v := by
  apply BitVec.eq_of_getLsbD_eq
  intro k hk
  rw [joinBytes_getLsbD _ hk, bytesLow_getLsbD v (by omega) (Nat.mod_lt k (by decide)), Nat.div_add_mod]

/-- Joining the bytes of a word beside free high bits and dropping those bits gives the word back. -/
theorem joinBytes_bytesLow_append {p width n : Nat} (pad : BitVec p) (v : BitVec width) (h : p + width ≤ 8 * n) :
    (joinBytes (p + width) (bytesLow n (pad ++ v))).setWidth width = v := by
  rw [joinBytes_bytesLow _ h, BitVec.setWidth_append_eq_right]

/-- Settles O43: the order of the offsets is undone by applying it again, and the bytes of a word give the word back. -/
theorem busCarriesTheWordsBack : Obligations.BusCarriesTheWordsBack := by
  refine ⟨fun order cw => ?_, fun order rw => ?_⟩
  · rw [cmdOfBusBytes, cmdBusBytes, orderBytes_orderBytes]
    exact joinBytes_bytesLow_append Config.cmdPad cw (by decide)
  · rw [rspOfBusBytes, rspBusBytes, orderBytes_orderBytes]
    exact joinBytes_bytesLow_append Config.rspPad rw (by decide)

end Sys2Proof.Machine
end

section
/-! Decode and encode in both directions, and the fields of a decoded word (30_encoding.md R71 to R73). -/

namespace Sys2Proof

theorem decode_insert_of_bit {cw : CmdWord} (h : cw.getLsbD 128 = false) :
    decode cw = .insert (insertSlot cw 0) (insertSlot cw 1) (insertSlot cw 2) (insertSlot cw 3) :=
  decode_of_opcode_zero ((opcodeBit_eq cw).trans h)

theorem decode_tobin_of_bit {cw : CmdWord} (h : cw.getLsbD 128 = true) : decode cw = .tobin (tobinValue cw) :=
  decode_of_opcode_one ((opcodeBit_eq cw).trans h)

/-- The bits of `encode (decode cw)` of an INSERT word: below bit 128 each is read from the slot it stands in. -/
theorem encode_decode_of_insert {cw : CmdWord} (h : cw.getLsbD 128 = false) : encode (decode cw) = cw := by
  apply BitVec.eq_of_getLsbD_eq
  intro k hk
  rw [decode_insert_of_bit h, encode_insert_getLsbD]
  simp only [insertSlot_getLsbD]
  grind

theorem encode_decode_of_tobin_getLsbD {cw : CmdWord} (h : cw.getLsbD 128 = true) (k : Nat) :
    (encode (decode cw)).getLsbD k = (cw.getLsbD k && (decide (k < 64) || decide (k = 128))) := by
  rw [decode_tobin_of_bit h, encode_tobin_getLsbD, tobinValue_getLsbD]
  grind

/-- Settles O4: bit by bit for a word, from the places of the fields for a command. -/
theorem decodingAndEncodingAgree : Obligations.DecodingAndEncodingAgree :=
  ⟨fun i _ => decode_encode i, fun _ => encode_decode_of_insert, fun _ => encode_decode_of_tobin_getLsbD⟩

/-- Settles O1: three closed words. -/
theorem specWordsDecodeToTheirCommands : Obligations.SpecWordsDecodeToTheirCommands := by
  unfold Obligations.SpecWordsDecodeToTheirCommands
  decide

/-- Settles O2: each value of bit 128 gives one of the two commands, and no command is both. -/
theorem opcodeBitSelectsTheCommand : Obligations.OpcodeBitSelectsTheCommand := by
  intro cw
  cases h : cw.getLsbD 128 with
  | false => simp [decode_insert_of_bit h]
  | true => simp [decode_tobin_of_bit h]

/-- Bit 128 of a word that decodes to an INSERT, and the slots its operands are. -/
theorem fields_of_decode_insert {cw : CmdWord} {src ins ridx lidx : Word} (h : decode cw = .insert src ins ridx lidx) :
    cw.getLsbD 128 = false ∧ src = insertSlot cw 0 ∧ ins = insertSlot cw 1 ∧ ridx = insertSlot cw 2 ∧
      lidx = insertSlot cw 3 := by
  cases hop : cw.getLsbD 128 with
  | false =>
    rw [decode_insert_of_bit hop] at h
    cases h
    exact ⟨rfl, rfl, rfl, rfl, rfl⟩
  | true => rw [decode_tobin_of_bit hop] at h; cases h

theorem fields_of_decode_tobin {cw : CmdWord} {val : DWord} (h : decode cw = .tobin val) :
    cw.getLsbD 128 = true ∧ val = tobinValue cw := by
  cases hop : cw.getLsbD 128 with
  | false => rw [decode_insert_of_bit hop] at h; cases h
  | true =>
    rw [decode_tobin_of_bit hop] at h
    cases h
    exact ⟨rfl, rfl⟩

/-- TOBIN words that agree on their low 64 bits decode to the same command: the ignored bits do not reach it. -/
theorem decode_eq_of_tobin_agree {cw cw' : CmdWord} (h : cw.getLsbD 128 = true) (h' : cw'.getLsbD 128 = true)
    (hlow : ∀ k < 64, cw.getLsbD k = cw'.getLsbD k) : decode cw = decode cw' := by
  have hval : tobinValue cw = tobinValue cw' := by
    apply BitVec.eq_of_getLsbD_eq
    intro k hk
    rw [tobinValue_getLsbD, tobinValue_getLsbD, hlow k hk]
  rw [decode_tobin_of_bit h, decode_tobin_of_bit h', hval]

end Sys2Proof

namespace Sys2Proof.Machine

/-- The response of a word is that of the command it decodes to. -/
theorem F_eq_commandResponse (cw : CmdWord) : F cw = commandResponse (decode cw) := by
  rw [commandResponse, F, F, decode_encode]

/-- Settles O3: the operands of a decoded word are its slots, read bit by bit. -/
theorem fieldsStandAtTheirBits : Obligations.FieldsStandAtTheirBits := by
  refine ⟨fun cw src ins ridx lidx h => ?_, fun cw val h => ?_, fun cw cw' h h' hlow => ?_⟩
  · obtain ⟨hop, rfl, rfl, rfl, rfl⟩ := fields_of_decode_insert h
    refine ⟨hop, fun k hk => ?_⟩
    simp only [insertSlot_getLsbD, hk, decide_true, Bool.true_and, Nat.add_comm _ k, Nat.reduceMul, Nat.add_zero, and_self]
  · obtain ⟨hop, rfl⟩ := fields_of_decode_tobin h
    refine ⟨hop, fun k hk => ?_⟩
    rw [tobinValue_getLsbD, decide_eq_true hk, Bool.true_and]
  · have hdec := decode_eq_of_tobin_agree h h' hlow
    exact ⟨hdec, by rw [F_eq_commandResponse, F_eq_commandResponse, hdec]⟩

theorem commandResponse_insert (src ins ridx lidx : Word) :
    commandResponse (.insert src ins ridx lidx) = insertResponse src ins ridx lidx := by
  rw [commandResponse, F, decode_encode]

/-- Settles O22: a TOBIN is answered with `OK`, an INSERT that is not is answered by `raiseError`. -/
theorem errorResponsesCarryNoResult : Obligations.ErrorResponsesCarryNoResult := by
  intro cw hst
  rw [F_eq_commandResponse] at hst ⊢
  cases hdec : decode cw with
  | tobin val => rw [hdec, commandResponse_tobin, tobinResponse, rspStatus_respond] at hst; exact absurd rfl hst
  | insert src ins ridx lidx =>
    refine ⟨?_, src, ins, ridx, lidx, rfl⟩
    rw [hdec, commandResponse_insert, insertResponse] at hst
    rw [commandResponse_insert, insertResponse]
    cases hv : validate ridx lidx with
    | some e => exact rspData_raiseError e
    | none => rw [hv] at hst; exact absurd (rspStatus_respond _ _) hst

/-- Settles O44: `literalWord` of literals is `encode`, which writes the two words so. -/
theorem commandLinesEncode : Obligations.CommandLinesEncode :=
  ⟨fun _ _ _ _ => rfl, fun _ => rfl⟩

end Sys2Proof.Machine
end

section
/-! What each pseudo-instruction does (30_encoding.md R85). -/

namespace Sys2Proof.Machine

/-- An INSERT over a valid range completes, and its result has the bits of INS in the range and those of SRC elsewhere. -/
theorem commandResponse_of_validRange (src ins : Word) {ridx lidx : Word} (h : validRange ridx lidx = true) :
    rspStatus (commandResponse (.insert src ins ridx lidx)) = .ok ∧
      ∀ k < 32, (rspWord32 (commandResponse (.insert src ins ridx lidx))).getLsbD k =
        if ridx.toNat ≤ k ∧ k ≤ lidx.toNat then ins.getLsbD (k - ridx.toNat) else src.getLsbD k := by
  rw [commandResponse_insert, insertResponse_of_validRange src ins h]
  refine ⟨rspStatus_respond _ _, fun k hk => ?_⟩
  rw [rspWord32_respond, insertResult_getLsbD src ins ((validRange_iff _ _).1 h).1 hk]

/-- An INSERT of one bit at `n ≤ 31` replaces that bit by `INS[0]`. -/
theorem commandResponse_of_bit (src ins : Word) {n : Word} (h : n.toNat ≤ 31) :
    rspStatus (commandResponse (.insert src ins n n)) = .ok ∧
      ∀ k < 32, (rspWord32 (commandResponse (.insert src ins n n))).getLsbD k =
        if k = n.toNat then ins.getLsbD 0 else src.getLsbD k := by
  obtain ⟨hst, hbits⟩ := commandResponse_of_validRange src ins ((validRange_iff n n).2 ⟨le_rfl, h⟩)
  refine ⟨hst, fun k hk => ?_⟩
  rw [hbits k hk]
  by_cases hkn : k = n.toNat
  · rw [if_pos ⟨hkn.ge, hkn.le⟩, if_pos hkn, hkn, Nat.sub_self]
  · rw [if_neg (by omega), if_neg hkn]

/-- A bit position above 31 passes the order check and fails the one on the right index. -/
theorem rspStatus_of_bit_out_of_range (src ins : Word) {n : Word} (h : n.toNat > 31) :
    rspStatus (commandResponse (.insert src ins n n)) = .eRightOor := by
  have hv : validate n n = some .eRightOor := by rw [validate_eq, if_neg (lt_irrefl _), if_pos h]
  rw [commandResponse_insert, insertResponse_of_error src ins hv, rspStatus_raiseError]

/-- MOVW's INSERT covers all 32 bits, so its result is the operand. -/
theorem commandResponse_of_full_range (src ins : Word) :
    rspStatus (commandResponse (.insert src ins 0#32 31#32)) = .ok ∧
      rspWord32 (commandResponse (.insert src ins 0#32 31#32)) = ins := by
  obtain ⟨hst, hbits⟩ := commandResponse_of_validRange src ins (ridx := 0#32) (lidx := 31#32) (by decide)
  refine ⟨hst, BitVec.eq_of_getLsbD_eq fun k hk => ?_⟩
  rw [hbits k hk, if_pos ⟨Nat.zero_le k, Nat.le_of_lt_succ hk⟩]
  rfl

/-- Settles O45: each expands to one INSERT (`.cw` to the word itself), whose response is known bit by bit. -/
theorem pseudoInstructionsDoWhatTheySay : Obligations.PseudoInstructionsDoWhatTheySay := by
  refine ⟨fun s n => ⟨_, rfl, commandResponse_of_bit s 1#32, rspStatus_of_bit_out_of_range s 1#32⟩,
    fun s n => ⟨_, rfl, fun hn => ?_, rspStatus_of_bit_out_of_range s 0#32⟩,
    fun s r l => ⟨_, rfl, fun hrl => ?_⟩, fun i => ⟨_, rfl, commandResponse_of_full_range 0#32 i⟩, fun cw => rfl⟩
  · exact commandResponse_of_bit s 0#32 hn
  · obtain ⟨hst, hbits⟩ := commandResponse_of_validRange s 0#32 hrl
    refine ⟨hst, fun k hk => (hbits k hk).trans ?_⟩
    rw [BitVec.getLsbD_zero]

end Sys2Proof.Machine
end

section
/-! Rounding a floating literal to binary64 (30_encoding.md R83, 93_implementation_defined.md G3): magnitudes as multiples of a
unit in the last place, and the nearest of them. -/

namespace Sys2Proof.Machine

/-! ### Magnitudes -/

/-- The distance between neighbouring magnitudes whose exponent field is `scale + 1`; with `scale = 0` also of those whose
exponent field is 0. -/
def magnitudeUnit (scale : Nat) : ℚ := 2 ^ scale / 2 ^ 1074

theorem magnitudeUnit_pos (scale : Nat) : 0 < magnitudeUnit scale := by
  unfold magnitudeUnit
  positivity

theorem magnitudeUnit_add (scale k : Nat) : magnitudeUnit (scale + k) = 2 ^ k * magnitudeUnit scale := by
  rw [magnitudeUnit, magnitudeUnit, pow_add, mul_comm (2 ^ scale), mul_div_assoc]

theorem magnitudeUnit_eq_zpow {scale : Nat} {u : ℤ} (h : u + 1074 = scale) : magnitudeUnit scale = 2 ^ u := by
  rw [magnitudeUnit, show u = (scale : ℤ) - (1074 : Nat) by omega, zpow_sub₀ two_ne_zero, zpow_natCast, zpow_natCast]

/-- A pattern with exponent field 0 counts units of scale 0. -/
theorem binary64Magnitude_of_subnormal {f : Nat} (h : f < 2 ^ 52) : binary64Magnitude f = f * magnitudeUnit 0 := by
  rw [binary64Magnitude, Nat.div_eq_of_lt h, Nat.mod_eq_of_lt h, if_pos rfl, magnitudeUnit, pow_succ (2 : ℚ) 1074, pow_zero]
  generalize (2 : ℚ) ^ 1074 = p
  rw [mul_comm 2, mul_div_mul_right _ _ two_ne_zero, mul_one_div]

/-- A pattern with exponent field `scale + 1` counts units of that scale, the leading one included. -/
theorem binary64Magnitude_of_normal {scale f : Nat} (h : f < 2 ^ 52) :
    binary64Magnitude ((scale + 1) * 2 ^ 52 + f) = (2 ^ 52 + f : Nat) * magnitudeUnit scale := by
  have hdiv : ((scale + 1) * 2 ^ 52 + f) / 2 ^ 52 = scale + 1 := by omega
  have hmod : ((scale + 1) * 2 ^ 52 + f) % 2 ^ 52 = f := by omega
  rw [binary64Magnitude, hdiv, hmod, if_neg (Nat.succ_ne_zero scale), magnitudeUnit, pow_succ (2 : ℚ) 1074, pow_succ (2 : ℚ) scale]
  generalize (2 : ℚ) ^ 1074 = p
  rw [← mul_assoc, mul_div_mul_right _ _ two_ne_zero, mul_div_assoc, Nat.cast_add, Nat.cast_pow, Nat.cast_ofNat]

/-- The pattern `scale * 2^52 + m` stands for `m` units of that scale, whenever `m` carries the leading one; the next power of two
is included. -/
theorem binary64Magnitude_of_parts {scale m : Nat} (hm : m ≤ 2 ^ 53) (hlead : scale = 0 ∨ 2 ^ 52 ≤ m) :
    binary64Magnitude (scale * 2 ^ 52 + m) = m * magnitudeUnit scale := by
  by_cases hsub : m < 2 ^ 52
  · obtain rfl : scale = 0 := by omega
    rw [zero_mul, zero_add, binary64Magnitude_of_subnormal hsub]
  · by_cases htop : m = 2 ^ 53
    · have hpat : scale * 2 ^ 52 + m = (scale + 1 + 1) * 2 ^ 52 + 0 := by omega
      rw [hpat, binary64Magnitude_of_normal (by norm_num), magnitudeUnit_add, htop]
      push_cast
      ring
    · have hpat : scale * 2 ^ 52 + m = (scale + 1) * 2 ^ 52 + (m - 2 ^ 52) := by omega
      rw [hpat, binary64Magnitude_of_normal (by omega), show 2 ^ 52 + (m - 2 ^ 52) = m by omega]

/-- Every pattern has such parts. -/
theorem exists_pattern_parts (q : Nat) :
    ∃ scale m, q = scale * 2 ^ 52 + m ∧ m < 2 ^ 53 ∧ (scale = 0 ∨ 2 ^ 52 ≤ m) :=
  ⟨q / 2 ^ 52 - 1, q - (q / 2 ^ 52 - 1) * 2 ^ 52, by omega, by omega, by omega⟩

/-- The next pattern is one unit further. -/
theorem binary64Magnitude_strictMono : StrictMono binary64Magnitude := by
  refine strictMono_nat_of_lt_succ fun q => ?_
  obtain ⟨scale, m, rfl, hm, hlead⟩ := exists_pattern_parts q
  rw [add_assoc, binary64Magnitude_of_parts hm.le hlead, binary64Magnitude_of_parts (by omega) (by omega)]
  have := magnitudeUnit_pos scale
  gcongr
  exact Nat.lt_succ_self m

/-- Seen from a scale, a pattern is a whole number of its units, or lies below all patterns that have that scale. -/
theorem binary64Magnitude_multiple_or_below (scale q : Nat) :
    (∃ j : Nat, binary64Magnitude q = j * magnitudeUnit scale) ∨
      (scale ≠ 0 ∧ binary64Magnitude q < (2 ^ 52 : Nat) * magnitudeUnit scale) := by
  obtain ⟨own, m, rfl, hm, hlead⟩ := exists_pattern_parts q
  rw [binary64Magnitude_of_parts hm.le hlead]
  rcases le_or_gt scale own with hle | hlt
  · obtain ⟨k, rfl⟩ := Nat.exists_eq_add_of_le hle
    exact .inl ⟨m * 2 ^ k, by rw [magnitudeUnit_add]; push_cast; ring⟩
  · obtain ⟨k, rfl⟩ := Nat.exists_eq_add_of_lt hlt
    refine .inr ⟨by omega, ?_⟩
    have hpos := magnitudeUnit_pos own
    rw [add_assoc, magnitudeUnit_add, ← mul_assoc]
    gcongr
    calc (m : ℚ) < (2 ^ 53 : Nat) := by exact_mod_cast hm
      _ = (2 ^ 52 : Nat) * 2 ^ 1 := by norm_num
      _ ≤ (2 ^ 52 : Nat) * 2 ^ (k + 1) := by gcongr <;> norm_num

/-! ### Rounding at a scale -/

/-- Scaling a ratio by a power of two, as `nearestBinary64` does before it rounds. -/
theorem exists_scaled_ratio (n : Nat) {d : Nat} (hd : d ≠ 0) (u : ℤ) :
    ∃ n' d' : Nat, d' ≠ 0 ∧ (n : ℚ) / d = n' / d' * 2 ^ u ∧
      (if 0 ≤ u then roundHalfEven n (d * 2 ^ u.toNat) else roundHalfEven (n * 2 ^ (-u).toNat) d) = roundHalfEven n' d' := by
  have hdq : (d : ℚ) ≠ 0 := Nat.cast_ne_zero.2 hd
  split
  · next hu =>
    refine ⟨n, d * 2 ^ u.toNat, by positivity, ?_, rfl⟩
    obtain ⟨k, rfl⟩ := Int.eq_ofNat_of_zero_le hu
    rw [Int.toNat_natCast, zpow_natCast]
    push_cast
    field_simp
  · next hu =>
    refine ⟨n * 2 ^ (-u).toNat, d, hd, ?_, rfl⟩
    obtain ⟨k, hk⟩ := Int.eq_ofNat_of_zero_le (a := -u) (by omega)
    rw [hk, Int.toNat_natCast, show u = -(k : ℤ) by omega, zpow_neg, zpow_natCast]
    push_cast
    field_simp

/-- `m` units of a scale are a nearest multiple of the unit to `x`, and of two nearest ones the even one. -/
def NearestMultiple (x : ℚ) (scale m : Nat) : Prop :=
  ∀ j : Nat, |x - m * magnitudeUnit scale| ≤ |x - j * magnitudeUnit scale| ∧
    (|x - m * magnitudeUnit scale| = |x - j * magnitudeUnit scale| → m = j ∨ m % 2 = 0)

theorem nearestMultiple_roundHalfEven (n : Nat) {d : Nat} (hd : d ≠ 0) (scale : Nat) :
    NearestMultiple ((n : ℚ) / d * magnitudeUnit scale) scale (roundHalfEven n d) := by
  intro j
  have hpos := magnitudeUnit_pos scale
  have hdist : ∀ i : Nat, |(n : ℚ) / d * magnitudeUnit scale - i * magnitudeUnit scale| = |(n : ℚ) / d - i| * magnitudeUnit scale :=
    fun i => by rw [← sub_mul, abs_mul, abs_of_pos hpos]
  obtain ⟨hnear, htie⟩ := roundHalfEven_spec n hd j
  rw [hdist, hdist]
  exact ⟨mul_le_mul_of_nonneg_right hnear hpos.le, fun h => htie (mul_right_cancel₀ hpos.ne' h)⟩

theorem roundHalfEven_le_of_lt {n d b : Nat} (hd : d ≠ 0) (h : (n : ℚ) / d < b) : roundHalfEven n d ≤ b := by
  rw [div_lt_iff₀ (by positivity)] at h
  have hq : n / d < b := Nat.div_lt_of_lt_mul (by rw [mul_comm]; exact_mod_cast h)
  exact (roundHalfEven_bounds n d).2.trans hq

theorem le_roundHalfEven_of_le {n d b : Nat} (hd : d ≠ 0) (h : (b : ℚ) ≤ n / d) : b ≤ roundHalfEven n d := by
  rw [le_div_iff₀ (by positivity)] at h
  have hq : b ≤ n / d := (Nat.le_div_iff_mul_le (Nat.pos_of_ne_zero hd)).2 (by exact_mod_cast h)
  exact hq.trans (roundHalfEven_bounds n d).1

/-- `nearestBinary64` picks the scale at which `n / d` has 53 bits, or the lowest one, and rounds to a multiple of its unit. -/
theorem nearestBinary64_parts {n d : Nat} (hn : n ≠ 0) (hd : d ≠ 0) :
    ∃ scale m, nearestBinary64 n d = scale * 2 ^ 52 + m ∧ m ≤ 2 ^ 53 ∧ NearestMultiple ((n : ℚ) / d) scale m ∧
      (scale = 0 ∨ 2 ^ 52 ≤ m ∧ (2 ^ 52 : Nat) * magnitudeUnit scale ≤ (n : ℚ) / d) := by
  obtain ⟨hlow, hhigh⟩ := floorLog2_spec hn hd
  obtain ⟨u, hu⟩ : ∃ u : ℤ, u = max (floorLog2 n d - 52) (-1074) := ⟨_, rfl⟩
  obtain ⟨n', d', hd', hscaled, hround⟩ := exists_scaled_ratio n hd u
  have hunit : magnitudeUnit (u + 1074).toNat = 2 ^ u := magnitudeUnit_eq_zpow (by omega)
  have hpos : (0 : ℚ) < 2 ^ u := by positivity
  refine ⟨(u + 1074).toNat, roundHalfEven n' d', ?_, roundHalfEven_le_of_lt hd' ?_, ?_, ?_⟩
  · simp only [nearestBinary64, hn, if_false, ← hu, hround]
  · refine lt_of_mul_lt_mul_right ?_ hpos.le
    calc (n' : ℚ) / d' * 2 ^ u = n / d := hscaled.symm
      _ < 2 ^ (floorLog2 n d + 1) := hhigh
      _ ≤ 2 ^ (53 + u) := zpow_le_zpow_right₀ one_le_two (by omega)
      _ = (2 ^ 53 : Nat) * 2 ^ u := by rw [zpow_add₀ two_ne_zero]; norm_num
  · rw [hscaled, ← hunit]
    exact nearestMultiple_roundHalfEven n' hd' _
  · by_cases hscale : (u + 1074).toNat = 0
    · exact .inl hscale
    · have hbelow : (2 ^ 52 : Nat) * (2 : ℚ) ^ u ≤ n / d := by
        calc (2 ^ 52 : Nat) * (2 : ℚ) ^ u = 2 ^ (52 + u) := by rw [zpow_add₀ two_ne_zero]; norm_num
          _ = 2 ^ floorLog2 n d := by congr 1; omega
          _ ≤ n / d := hlow
      refine .inr ⟨le_roundHalfEven_of_le hd' ?_, hunit ▸ hbelow⟩
      rw [hscaled] at hbelow
      exact le_of_mul_le_mul_right hbelow hpos

/-! ### The nearest pattern -/

/-- Pattern `p` is nearest to `x` among all patterns, those beyond the finite ones included, and the even one of two nearest. -/
def NearestPattern (x : ℚ) (p : Nat) : Prop :=
  ∀ q : Nat, |x - binary64Magnitude p| ≤ |x - binary64Magnitude q| ∧
    (|x - binary64Magnitude p| = |x - binary64Magnitude q| → p = q ∨ p % 2 = 0)

/-- A nearest multiple of the unit is a nearest pattern: a pattern that is no multiple lies below `2^52` units, which are nearer. -/
theorem nearestPattern_of_nearestMultiple {x : ℚ} {scale m : Nat} (hm : m ≤ 2 ^ 53) (hnear : NearestMultiple x scale m)
    (hlead : scale = 0 ∨ 2 ^ 52 ≤ m ∧ (2 ^ 52 : Nat) * magnitudeUnit scale ≤ x) : NearestPattern x (scale * 2 ^ 52 + m) := by
  have hmag := binary64Magnitude_of_parts hm (hlead.imp_right And.left)
  intro q
  rw [hmag]
  rcases binary64Magnitude_multiple_or_below scale q with ⟨j, hj⟩ | ⟨hscale, hbelow⟩
  · rw [hj]
    refine ⟨(hnear j).1, fun htie => ?_⟩
    rcases (hnear j).2 htie with rfl | heven
    · exact .inl (binary64Magnitude_strictMono.injective (hmag.trans hj.symm))
    · exact .inr (by omega)
  · have hx := (hlead.resolve_left hscale).2
    have hlt : |x - m * magnitudeUnit scale| < |x - binary64Magnitude q| :=
      calc |x - m * magnitudeUnit scale| ≤ |x - (2 ^ 52 : Nat) * magnitudeUnit scale| := (hnear _).1
        _ = x - (2 ^ 52 : Nat) * magnitudeUnit scale := abs_of_nonneg (sub_nonneg.2 hx)
        _ < x - binary64Magnitude q := sub_lt_sub_left hbelow x
        _ ≤ |x - binary64Magnitude q| := le_abs_self _
    exact ⟨hlt.le, fun htie => absurd htie hlt.ne⟩

theorem nearestPattern_nearestBinary64 (n : Nat) {d : Nat} (hd : d ≠ 0) : NearestPattern ((n : ℚ) / d) (nearestBinary64 n d) := by
  by_cases hn : n = 0
  · have hmag : binary64Magnitude 0 = 0 := by rw [binary64Magnitude_of_subnormal (by norm_num), Nat.cast_zero, zero_mul]
    rw [hn, nearestBinary64, if_pos rfl, Nat.cast_zero, zero_div]
    intro q
    rw [hmag, sub_zero, abs_zero]
    exact ⟨abs_nonneg _, fun _ => .inr rfl⟩
  · obtain ⟨scale, m, hpat, hm, hnear, hlead⟩ := nearestBinary64_parts hn hd
    rw [hpat]
    exact nearestPattern_of_nearestMultiple hm hnear hlead

/-! ### The bound of the finite values -/

/-- The magnitudes on either side of the bound, `2^970` below and above it. -/
theorem binary64Magnitude_around_bound :
    binary64Magnitude 0x7FEFFFFFFFFFFFFF = 2 ^ 1024 - 2 ^ 970 - 2 ^ 970 ∧
      binary64Magnitude 0x7FF0000000000000 = 2 ^ 1024 - 2 ^ 970 + 2 ^ 970 := by
  have hunit : magnitudeUnit 2045 = 2 ^ 970 * 2 := by
    rw [magnitudeUnit_eq_zpow (u := (971 : Nat)) (by norm_num), zpow_natCast, pow_succ]
  have htop : (2 : ℚ) ^ 1024 = 2 ^ 54 * 2 ^ 970 := by rw [← pow_add]
  have hlast := binary64Magnitude_of_parts (scale := 2045) (m := 2 ^ 53 - 1) (by norm_num) (by norm_num)
  have hnext := binary64Magnitude_of_parts (scale := 2045) (m := 2 ^ 53) le_rfl (by norm_num)
  rw [show 0x7FEFFFFFFFFFFFFF = 2045 * 2 ^ 52 + (2 ^ 53 - 1) by norm_num, hlast,
    show 0x7FF0000000000000 = 2045 * 2 ^ 52 + 2 ^ 53 by norm_num, hnext, hunit, htop]
  generalize (2 : ℚ) ^ 970 = p
  constructor <;> push_cast <;> ring

/-- The nearest pattern is finite exactly below the middle between the last finite magnitude and the next; the middle itself goes
to the even pattern, which is not finite. -/
theorem nearestPattern_finite_iff {x : ℚ} {p : Nat} (h : NearestPattern x p) :
    p < 0x7FF0000000000000 ↔ x < 2 ^ 1024 - 2 ^ 970 := by
  obtain ⟨hlast, hnext⟩ := binary64Magnitude_around_bound
  have hhalf : (0 : ℚ) < 2 ^ 970 := by positivity
  generalize (2 : ℚ) ^ 1024 - 2 ^ 970 = bound at *
  generalize (2 : ℚ) ^ 970 = half at *
  constructor
  · intro hp
    by_contra hx
    have hmag : binary64Magnitude p ≤ bound - half := hlast ▸ binary64Magnitude_strictMono.monotone (Nat.le_pred_of_lt hp)
    obtain ⟨hle, htie⟩ := h 0x7FF0000000000000
    rw [hnext, abs_of_nonneg (by linarith)] at hle htie
    rcases le_total (bound + half) x with hfar | hnear
    · rw [abs_of_nonneg (by linarith)] at hle
      linarith
    · rw [abs_of_nonpos (by linarith)] at hle htie
      have hp' : p = 0x7FEFFFFFFFFFFFFF := binary64Magnitude_strictMono.injective (hlast ▸ by linarith)
      have := htie (by linarith)
      omega
  · intro hx
    by_contra hp
    have hmag : bound + half ≤ binary64Magnitude p := hnext ▸ binary64Magnitude_strictMono.monotone (not_lt.1 hp)
    have hle := (h 0x7FEFFFFFFFFFFFFF).1
    rw [hlast, abs_of_nonpos (by linarith)] at hle
    have hge : |x - (bound - half)| < bound + half - x := abs_lt.2 ⟨by linarith, by linarith⟩
    linarith

/-! ### Decimal literals -/

/-- The ratio that `doubleOfDecimal` rounds is `digits · 10^e`; the nearest pattern gets the sign if it is finite. -/
theorem doubleOfDecimal_eq (negative : Bool) (digits : Nat) (e : Int) :
    ∃ p, NearestPattern (digits * (10 : ℚ) ^ e) p ∧ doubleOfDecimal negative digits e =
      if p < 0x7FF0000000000000 then .ok (BitVec.ofNat 64 ((if negative then 2 ^ 63 else 0) + p))
      else .error .literalDoesNotFit := by
  refine ⟨_, ?_, rfl⟩
  split
  · next he =>
    obtain ⟨k, rfl⟩ := Int.eq_ofNat_of_zero_le he
    have h := nearestPattern_nearestBinary64 (digits * 10 ^ k) one_ne_zero
    rw [Int.toNat_natCast, zpow_natCast]
    push_cast at h
    rwa [div_one] at h
  · next he =>
    obtain ⟨k, hk⟩ := Int.eq_ofNat_of_zero_le (a := -e) (by omega)
    have h := nearestPattern_nearestBinary64 digits (d := 10 ^ k) (by positivity)
    rw [hk, Int.toNat_natCast, show e = -(k : ℤ) by omega, zpow_neg, zpow_natCast, ← div_eq_mul_inv]
    push_cast at h
    exact h

/-- Settles O47: the nearest of all patterns is in particular nearest among the finite ones, and it is finite exactly below the
bound. -/
theorem floatingLiteralsRoundToNearestEven : Obligations.FloatingLiteralsRoundToNearestEven := by
  refine ⟨fun n d hd _ q _ => nearestPattern_nearestBinary64 n hd.ne' q, fun negative digits e => ?_⟩
  obtain ⟨p, hnear, heq⟩ := doubleOfDecimal_eq negative digits e
  intro x
  rw [heq]
  refine ⟨fun hx => if_neg fun hp => ?_, fun hx => ?_⟩
  · exact absurd ((nearestPattern_finite_iff hnear).1 hp) (not_lt.2 hx)
  · have hp := (nearestPattern_finite_iff hnear).2 hx
    obtain ⟨hsign, hmag⟩ := pattern_fields negative (m := p) (hp.trans (by norm_num))
    refine ⟨_, if_pos hp, hsign, ?_⟩
    rw [hmag]
    exact ⟨hp, fun q _ => hnear q⟩

end Sys2Proof.Machine
end

section
/-! The sign, digits and exponent that the text of a floating literal stands for (30_encoding.md R83; log entry 9). -/

namespace Sys2Proof.Machine

/-- The letter of an exponent. -/
abbrev IsExponentMark (c : Char) : Prop := c = 'e' ∨ c = 'E'

theorem not_isDigit_of_isExponentMark {c : Char} (h : IsExponentMark c) : ¬IsDigit c := by
  rcases h with rfl | rfl <;> decide

/-! ### The unsigned literal -/

section
variable (negative : Bool) {whole frac e : Text} {c : Char}

/-- Digits, a point and digits: the exponent is the number of digits after the point, negated. -/
theorem parseUnsignedFloat_point (hne : whole ≠ []) (hw : ∀ c ∈ whole, IsDigit c) (hf : ∀ c ∈ frac, IsDigit c) :
    parseUnsignedFloat negative (whole ++ '.' :: frac) =
      doubleOfDecimal negative (decimalValue (whole ++ frac)) (-(frac.length : Int)) := by
  obtain ⟨htake, hdrop⟩ := takeWhile_of (r := '.' :: frac) hw (by simp)
  obtain ⟨htake', hdrop'⟩ := takeWhile_of (r := []) hf (by simp)
  rw [List.append_nil] at htake' hdrop'
  have hdigits := parseDigits_of (t := whole ++ frac) (by simp [hne]) (by grind)
  simp [parseUnsignedFloat, htake, hdrop, htake', hdrop', hdigits, hne]

/-- Digits and an exponent part. -/
theorem parseUnsignedFloat_exponent (hne : whole ≠ []) (hw : ∀ c ∈ whole, IsDigit c) (hc : IsExponentMark c) {x : Int}
    (hx : parseExponent e = .ok x) :
    parseUnsignedFloat negative (whole ++ c :: e) = doubleOfDecimal negative (decimalValue whole) x := by
  obtain ⟨htake, hdrop⟩ := takeWhile_of (r := c :: e) hw (by simpa using not_isDigit_of_isExponentMark hc)
  have hdigits := parseDigits_of hne hw
  rcases hc with rfl | rfl <;>
    simp [parseUnsignedFloat, htake, hdrop, hdigits, hne, hx, Except.bind]

/-- Digits, a point, digits and an exponent part. -/
theorem parseUnsignedFloat_point_exponent (hne : whole ≠ []) (hw : ∀ c ∈ whole, IsDigit c) (hf : ∀ c ∈ frac, IsDigit c)
    (hc : IsExponentMark c) {x : Int} (hx : parseExponent e = .ok x) :
    parseUnsignedFloat negative (whole ++ '.' :: (frac ++ c :: e)) =
      doubleOfDecimal negative (decimalValue (whole ++ frac)) (x - frac.length) := by
  obtain ⟨htake, hdrop⟩ := takeWhile_of (r := '.' :: (frac ++ c :: e)) hw (by simp)
  obtain ⟨htake', hdrop'⟩ := takeWhile_of (r := c :: e) hf (by simpa using not_isDigit_of_isExponentMark hc)
  have hdigits := parseDigits_of (t := whole ++ frac) (by simp [hne]) (by grind)
  rcases hc with rfl | rfl <;>
    simp [parseUnsignedFloat, htake, hdrop, htake', hdrop', hdigits, hne, hx, Except.bind]

end

/-! ### The sign -/

/-- A text that begins with a digit and does not go on with `x` is read as an unsigned literal. -/
theorem parseValLit_of_digit {c : Char} {t : Text} (hc : IsDigit c) (ht : t.head? ≠ some 'x') :
    parseValLit (c :: t) = parseUnsignedFloat false (c :: t) := by
  unfold parseValLit
  split
  · next h => injection h with _ h; simp [h] at ht
  · next h => injection h with h _; rw [h] at hc; exact absurd hc.1 (by decide)
  · next h => injection h with h _; rw [h] at hc; exact absurd hc.1 (by decide)
  · rfl

/-- The sign is taken off, and what is left begins with digits and then a character that is no `x`. -/
theorem parseValLit_sign_append {sign whole t : Text} {negative : Bool} {c : Char}
    (hs : (sign, negative) ∈ [(([] : Text), false), (['+'], false), (['-'], true)]) (hne : whole ≠ [])
    (hw : ∀ c ∈ whole, IsDigit c) (hc : c ≠ 'x') :
    parseValLit (sign ++ (whole ++ c :: t)) = parseUnsignedFloat negative (whole ++ c :: t) := by
  simp only [List.mem_cons, Prod.mk.injEq, List.not_mem_nil, or_false] at hs
  rcases hs with ⟨rfl, rfl⟩ | ⟨rfl, rfl⟩ | ⟨rfl, rfl⟩
  · obtain ⟨d, ds, rfl⟩ := List.exists_cons_of_ne_nil hne
    refine parseValLit_of_digit (hw d (by simp)) ?_
    cases ds with
    | nil => simpa using hc
    | cons d' ds =>
      have hd' := hw d' (by simp)
      intro h
      injection h with h
      exact absurd (h ▸ hd').2 (by decide)
  · rfl
  · rfl

/-- Settles O51: the sign is taken off, the digits are cut at the point and at the exponent's letter. -/
theorem floatingLiteralTextsStandForTheirDecimals : Obligations.FloatingLiteralTextsStandForTheirDecimals := by
  refine ⟨fun sign whole frac mark expSign exponent negative s hs hmark hexp hne hene hdig => ?_, by decide⟩
  have hw : ∀ c ∈ whole, IsDigit c := fun c hc => hdig c (by simp [hc])
  have hf : ∀ c ∈ frac, IsDigit c := fun c hc => hdig c (by simp [hc])
  have hx := parseExponent_of hexp hene fun c hc => hdig c (by simp [hc])
  obtain ⟨c, rfl, hc⟩ : ∃ c, mark = [c] ∧ IsExponentMark c := by
    simp only [List.mem_cons, List.not_mem_nil, or_false] at hmark
    rcases hmark with rfl | rfl
    · exact ⟨_, rfl, .inl rfl⟩
    · exact ⟨_, rfl, .inr rfl⟩
  have hcx : c ≠ 'x' := by rcases hc with rfl | rfl <;> decide
  simp only [List.append_assoc, List.cons_append, List.nil_append]
  refine ⟨?_, ?_, ?_⟩
  · rw [parseValLit_sign_append hs hne hw (by decide), parseUnsignedFloat_point negative hne hw hf]
  · rw [parseValLit_sign_append hs hne hw hcx, parseUnsignedFloat_exponent negative hne hw hc hx]
  · rw [parseValLit_sign_append hs hne hw (by decide), parseUnsignedFloat_point_exponent negative hne hw hf hc hx]

end Sys2Proof.Machine
end

section
/-! A host program's run against the words its lines stand for (30_encoding.md R85, R86, 70_reset_and_hazards.md R166, R169). -/

namespace Sys2Proof.Machine

/-! ### Answers of the host's functions -/

theorem bind_eq_ok_iff {ε α β : Type} {x : Except ε α} {f : α → Except ε β} {b : β} :
    x.bind f = .ok b ↔ ∃ a, x = .ok a ∧ f a = .ok b := by
  cases x <;> simp [Except.bind]

theorem map_eq_ok_iff {ε α β : Type} {x : Except ε α} {f : α → β} {b : β} : x.map f = .ok b ↔ ∃ a, x = .ok a ∧ f a = b := by
  cases x <;> simp [Except.map]

/-! ### The value of a variable -/

/-- The string a host reads from a TOBIN's response is the one the command forms (41_tobin.md R126). -/
theorem rspString_tobinResponse (val : DWord) : rspString (tobinResponse val) = binaryString val := by
  rw [rspString, binaryString, List.map_inj_left]
  intro i hi
  rw [tobinResponse, rspData_respond, dataByte_tobinData val (List.mem_range.1 hi), stringChar, bitChar]
  cases val.getLsbD (63 - i) <;> rfl

theorem rspStatus_commandResponse_insert (src ins ridx lidx : Word) :
    rspStatus (commandResponse (.insert src ins ridx lidx)) = .ok ↔ validRange ridx lidx = true := by
  refine ⟨fun h => ?_, fun h => (commandResponse_of_validRange src ins h).1⟩
  rw [commandResponse_insert, insertResponse, validate_eq] at h
  rw [validRange_iff]
  split_ifs at h
  · simp at h
  · simp at h
  · simp at h
  · omega

/-- What a host takes from a response is the result of its command. -/
theorem resultOf_F (cw : CmdWord) : resultOf cw (F cw) = hostResult cw := by
  rw [resultOf, hostResult, F_eq_commandResponse]
  cases decode cw with
  | insert src ins ridx lidx => simp only [rspStatus_commandResponse_insert, resOf]
  | tobin val =>
    rw [commandResponse_tobin, tobinResponse, rspStatus_respond, if_pos rfl]
    exact congrArg (fun t => some (HostValue.string t)) (rspString_tobinResponse val)

/-! ### The command of a line -/

section
variable {lines : List AsmLine} {h : HostRun} (hb : h.Bound lines) (hr : h.results = h.issued.map F)
include hb hr

/-- A host that has every response reads a name as the 32-bit value it stands for, if it stands for one. -/
theorem value32_eq_ok_iff (name : Text) (position : Nat) (v : Word) :
    h.value32 name position = .ok v ↔ NameStandsFor lines h.issued lines.length name v := by
  have hbound := lookup_bound hb name
  unfold HostRun.value32 NameStandsFor
  cases hl : h.lookup name with
  | none => simp [← hbound, hl]
  | some j =>
    have hj : j < h.issued.length := hb.1 ▸ ((hbound j).1 hl).1
    simp only [← hbound, hl, hr, Option.bind_some, List.getElem?_eq_getElem hj, Option.map_some, List.getElem?_map, resultOf_F,
      Option.some.injEq]
    constructor
    · intro hv
      refine ⟨j, _, rfl, List.getElem?_eq_getElem hj, ?_⟩
      split at hv
      · next w heq => cases hv; exact heq
      · cases hv
      · cases hv
    · rintro ⟨_, cw, rfl, hcw, hres⟩
      rw [List.getElem?_eq_getElem hj, Option.some.injEq] at hcw
      rw [hcw, hres]

theorem operand32_eq_ok_iff (a : Arg32) (position : Nat) (v : Word) :
    h.operand32 a position = .ok v ↔ a.StandsFor lines h.issued lines.length v := by
  cases a with
  | lit w => simp [HostRun.operand32, Arg32.StandsFor, eq_comm]
  | var name => exact value32_eq_ok_iff hb hr name position v

theorem operand64_eq_ok_iff (a : Arg64) (v : DWord) :
    h.operand64 a = .ok v ↔ a.StandsFor lines h.issued lines.length v := by
  cases a with
  | lit w => simp [HostRun.operand64, Arg64.StandsFor, eq_comm]
  | var name =>
    simp only [HostRun.operand64, Arg64.StandsFor, map_eq_ok_iff, value32_eq_ok_iff hb hr, eq_comm (a := v)]
  | pair hi lo =>
    simp only [HostRun.operand64, Arg64.StandsFor, bind_eq_ok_iff, map_eq_ok_iff, value32_eq_ok_iff hb hr,
      eq_comm (a := v), ← exists_and_left]

/-- An operand stands for at most one value. -/
theorem standsFor_unique {a : Arg32} {v w : Word} (hv : a.StandsFor lines h.issued lines.length v)
    (hw : a.StandsFor lines h.issued lines.length w) : v = w := by
  rw [← operand32_eq_ok_iff hb hr a 0] at hv hw
  exact Except.ok.inj (hv.symm.trans hw)

theorem form_insert_eq_ok_iff (src ins right left : Arg32) (cw : CmdWord) :
    h.form (.insert src ins right left) = .ok cw ↔
      (AsmCommand.insert src ins right left).Forms lines h.issued lines.length cw := by
  simp only [HostRun.form, AsmCommand.expand, AsmCommand.Forms, bind_eq_ok_iff, map_eq_ok_iff, operand32_eq_ok_iff hb hr,
    eq_comm (a := cw), ← exists_and_left]

/-- An INSERT of a literal at one operand's bit, which SETBIT and CLRBIT expand to: the operand stands for one value, although the
host reads it twice. -/
theorem forms_insert_bit_iff (src n : Arg32) (b : Word) (cw : CmdWord) :
    (AsmCommand.insert src (.lit b) n n).Forms lines h.issued lines.length cw ↔
      ∃ s x, src.StandsFor lines h.issued lines.length s ∧ n.StandsFor lines h.issued lines.length x ∧
        cw = encode (.insert s b x x) := by
  constructor
  · rintro ⟨s, _, r, l, hs, rfl, hright, hleft, rfl⟩
    obtain rfl := standsFor_unique hb hr hright hleft
    exact ⟨s, r, hs, hright, rfl⟩
  · rintro ⟨s, x, hs, hx, rfl⟩
    exact ⟨s, b, x, x, hs, rfl, hx, hx, rfl⟩

/-- A host that has every response forms exactly the word a line stands for. -/
theorem form_eq_ok_iff (c : AsmCommand) (cw : CmdWord) :
    h.form c = .ok cw ↔ c.Forms lines h.issued lines.length cw := by
  have hinsert := form_insert_eq_ok_iff hb hr (cw := cw)
  cases c with
  | insert src ins right left => exact hinsert src ins right left
  | setbit s n => exact (hinsert s (.lit 1#32) n n).trans (forms_insert_bit_iff hb hr s n 1#32 cw)
  | clrbit s n => exact (hinsert s (.lit 0#32) n n).trans (forms_insert_bit_iff hb hr s n 0#32 cw)
  | clrrange s right left =>
    refine (hinsert s (.lit 0#32) right left).trans ?_
    simp [AsmCommand.Forms, Arg32.StandsFor]
  | movw i =>
    refine (hinsert (.lit 0#32) i (.lit 0#32) (.lit 31#32)).trans ?_
    simp [AsmCommand.Forms, Arg32.StandsFor]
  | tobin val =>
    simp only [HostRun.form, AsmCommand.expand, AsmCommand.Forms, map_eq_ok_iff, operand64_eq_ok_iff hb hr, eq_comm (a := cw)]
  | cw word => simp [HostRun.form, AsmCommand.expand, AsmCommand.Forms, eq_comm]

end

/-! ### The lines of a program -/

/-- The words of a program and one more line: those of the program, and the one the line stands for after them. -/
theorem programForms_concat_iff {lines : List AsmLine} {line : AsmLine} {words : List CmdWord} {cw : CmdWord} :
    ProgramForms (lines ++ [line]) (words ++ [cw]) ↔
      ProgramForms lines words ∧ line.command.Forms lines words lines.length cw := by
  unfold ProgramForms
  simp only [List.length_append, List.length_singleton, Nat.add_right_cancel_iff]
  constructor
  · rintro ⟨hlen, hall⟩
    refine ⟨⟨hlen, fun k l w hl hw => ?_⟩, ?_⟩
    · have hk := (List.getElem?_eq_some_iff.1 hl).1
      rw [← forms_append (more := [line]) (ws' := [cw]) hk.le (hlen ▸ hk.le)]
      exact hall k l w (by rwa [List.getElem?_append_left hk]) (by rwa [List.getElem?_append_left (hlen ▸ hk)])
    · rw [← forms_append (more := [line]) (ws' := [cw]) le_rfl hlen.ge]
      exact hall lines.length line cw (by simp) (by simp [← hlen])
  · rintro ⟨⟨hlen, hall⟩, hlast⟩
    refine ⟨hlen, fun k l w hl hw => ?_⟩
    by_cases hk : k < lines.length
    · rw [List.getElem?_append_left hk] at hl
      rw [List.getElem?_append_left (hlen ▸ hk)] at hw
      rw [forms_append hk.le (hlen ▸ hk.le)]
      exact hall k l w hl hw
    · obtain rfl : k = lines.length := by
        have := (List.getElem?_eq_some_iff.1 hl).1
        simp at this
        omega
      rw [List.getElem?_concat_length, Option.some.injEq] at hl
      rw [← hlen, List.getElem?_concat_length, Option.some.injEq] at hw
      subst hl hw
      rw [forms_append le_rfl hlen.ge]
      exact hlast

/-- The host has run the lines: it has the response to each, or can read it on the port, its words are those the lines stand for,
and its variables are those they bind. -/
structure HostRun.HasRun (lines : List AsmLine) (core : State) (h : HostRun) : Prop where
  settled : h.Settled
  stages : h.core.stages = core.stages
  bound : h.Bound lines
  forms : ProgramForms lines h.issued

/-- The lines of a program with their waits, before the last wait. -/
def linesSchedule (n : Nat) (lines : List AsmLine) : List HostAction :=
  lines.flatMap fun l => .issue l :: List.replicate (n - 1) .wait

theorem waitingSchedule_eq (n : Nat) (lines : List AsmLine) :
    waitingSchedule n lines = linesSchedule n lines ++ List.replicate (min n 1) .wait := rfl

theorem linesSchedule_concat (n : Nat) (lines : List AsmLine) (line : AsmLine) :
    linesSchedule n (lines ++ [line]) = linesSchedule n lines ++ (.issue line :: List.replicate (n - 1) .wait) := by
  simp [linesSchedule]

theorem hasRun_start {core : State} (hv : ∀ x ∈ core.slots, x.v = false) : (HostRun.start core).HasRun [] core where
  settled := start_settled hv
  stages := rfl
  bound := bound_start core
  forms := ⟨rfl, fun k line cw hl => by simp at hl⟩

/-- One more line goes through exactly if it stands for a word, and then the host has run it too. -/
theorem hasRun_line {lines : List AsmLine} {core : State} {h : HostRun} (line : AsmLine) (hh : h.HasRun lines core) :
    (∀ h', runActions (.issue line :: List.replicate (core.stages - 1) .wait) h = .ok h' →
        h'.HasRun (lines ++ [line]) core) ∧
      ∀ cw, line.command.Forms lines h.issued lines.length cw →
        ∃ h', runActions (.issue line :: List.replicate (core.stages - 1) .wait) h = .ok h' ∧ h'.issued = h.issued ++ [cw] := by
  obtain ⟨hs, hst, hb, hf⟩ := hh
  obtain ⟨hstops, hgoes⟩ := line_spec line hs
  rw [hst] at hstops hgoes
  have hform := form_eq_ok_iff (h := { h with results := h.issued.map F }) hb rfl line.command
  refine ⟨fun h' hrun => ?_, fun cw hcw => ?_⟩
  · cases hcase : ({ h with results := h.issued.map F } : HostRun).form line.command with
    | error e => rw [hstops e hcase] at hrun; cases hrun
    | ok cw =>
      obtain ⟨g, hg, hgs, hgst, hgi, hgv⟩ := hgoes cw hcase
      obtain rfl : g = h' := Except.ok.inj (hg.symm.trans hrun)
      exact ⟨hgs, hgst, record_bound hb hgi hgv, hgi ▸ programForms_concat_iff.2 ⟨hf, (hform cw).1 hcase⟩⟩
  · obtain ⟨g, hg, -, -, hgi, -⟩ := hgoes cw ((hform cw).2 hcw)
    exact ⟨g, hg, hgi⟩

/-- The lines of a program go through exactly if they stand for words, and then the host has run them. -/
theorem hasRun_lines (lines : List AsmLine) {core : State} (hv : ∀ x ∈ core.slots, x.v = false) :
    (∀ h, runActions (linesSchedule core.stages lines) (HostRun.start core) = .ok h → h.HasRun lines core) ∧
      ∀ words, ProgramForms lines words →
        ∃ h, runActions (linesSchedule core.stages lines) (HostRun.start core) = .ok h ∧ h.issued = words := by
  induction lines using List.reverseRecOn with
  | nil =>
    refine ⟨fun h hrun => ?_, fun words hw => ⟨_, rfl, (List.eq_nil_of_length_eq_zero hw.1).symm⟩⟩
    obtain rfl : HostRun.start core = h := Except.ok.inj hrun
    exact hasRun_start hv
  | append_singleton init line ih =>
    obtain ⟨ihrun, ihgoes⟩ := ih
    simp only [linesSchedule_concat, runActions_append, bind_eq_ok_iff]
    refine ⟨fun h ⟨g, hg, hline⟩ => (hasRun_line line (ihrun g hg)).1 h hline, fun words hw => ?_⟩
    obtain ⟨ws, cw, rfl⟩ := (List.eq_nil_or_concat' words).resolve_left fun e => by simp [e, ProgramForms] at hw
    obtain ⟨hinit, hcw⟩ := programForms_concat_iff.1 hw
    obtain ⟨g, hg, rfl⟩ := ihgoes ws hinit
    obtain ⟨h, hline, hi⟩ := (hasRun_line line (ihrun g hg)).2 cw hcw
    exact ⟨h, ⟨g, hg, hline⟩, hi⟩

/-- A program goes through as its lines do; after the last wait the host has every response. -/
theorem runProgram_eq_ok {lines : List AsmLine} {core : State} {h : HostRun} (hv : ∀ x ∈ core.slots, x.v = false)
    (hrun : runProgram lines core = .ok h) : h.Bound lines ∧ ProgramForms lines h.issued ∧ h.results = h.issued.map F := by
  rw [runProgram, waitingSchedule_eq, runActions_append, bind_eq_ok_iff] at hrun
  obtain ⟨g, hg, hlast⟩ := hrun
  obtain ⟨hs, hst, hb, hf⟩ := (hasRun_lines lines hv).1 g hg
  obtain ⟨h', hw, hi, hvars, hr⟩ := last_wait hs
  rw [hst] at hw
  obtain rfl : h' = h := Except.ok.inj (hw.symm.trans hlast)
  rw [HostRun.Bound, hi, hvars]
  exact ⟨hb, hf, hr⟩

theorem runProgram_of_forms {lines : List AsmLine} {core : State} {words : List CmdWord} (hv : ∀ x ∈ core.slots, x.v = false)
    (hw : ProgramForms lines words) : ∃ h, runProgram lines core = .ok h ∧ h.issued = words := by
  obtain ⟨g, hg, rfl⟩ := (hasRun_lines lines hv).2 words hw
  have hh := (hasRun_lines lines hv).1 g hg
  obtain ⟨h, hwait, hi, -, -⟩ := last_wait hh.settled
  rw [hh.stages] at hwait
  refine ⟨h, ?_, hi⟩
  rw [runProgram, waitingSchedule_eq, runActions_append, bind_eq_ok_iff]
  exact ⟨g, hg, hwait⟩

/-- Settles O50, by the line-by-line run of `hasRun_lines` and its last wait. -/
theorem hostProgramEndsWithItsResponses : Obligations.HostProgramEndsWithItsResponses := by
  intro lines core hv
  refine ⟨fun words => runProgram_of_forms hv, fun h hrun => ?_⟩
  obtain ⟨hb, hf, hr⟩ := runProgram_eq_ok hv hrun
  refine ⟨?_, hb.1, hf, hr⟩
  rw [HostRun.ended, decide_eq_true_eq, hr, List.length_map, hb.1]

end Sys2Proof.Machine
end

section
/-! Printing a command word and assembling the line gives it back (30_encoding.md R84, R87; log entry 10). -/

namespace Sys2Proof.Machine

/-! ### Printed digits -/

theorem hexDigit_hexChar : ∀ d < 16, hexDigit (hexChar d) = some d := by decide

theorem decDigit_hexChar : ∀ d < 10, decDigit (hexChar d) = some d := by decide

/-- One more digit of `parseDigits`: the accumulated number moves up by one place of the base. -/
def pushDigit (base : Nat) (digit : Char → Option Nat) (acc : Option Nat) (c : Char) : Option Nat :=
  acc.bind fun n => (digit c).map fun d => base * n + d

theorem parseDigits_of_ne_nil (base : Nat) (digit : Char → Option Nat) {t : Text} (h : t ≠ []) :
    parseDigits base digit t = t.foldl (pushDigit base digit) (some 0) := if_neg h

theorem foldl_pushDigit_hexText (k n : Nat) : (hexText k n).foldl (pushDigit 16 hexDigit) (some 0) = some (n % 16 ^ k) := by
  induction k generalizing n with
  | zero => rw [pow_zero, Nat.mod_one]; rfl
  | succ k ih =>
    rw [hexText, List.foldl_append, ih, List.foldl_cons, List.foldl_nil, pushDigit, Option.bind_some,
      hexDigit_hexChar _ (Nat.mod_lt n (by decide)), Option.map_some, Nat.pow_succ', Nat.mod_mul, Nat.add_comm]

theorem foldl_pushDigit_decText {fuel n : Nat} (h : n < 10 ^ fuel) :
    (decText fuel n).foldl (pushDigit 10 decDigit) (some 0) = some n := by
  induction fuel generalizing n with
  | zero => rw [Nat.lt_one_iff.1 h]; rfl
  | succ fuel ih =>
    rw [decText]
    split
    · next hn => rw [List.foldl_cons, List.foldl_nil, pushDigit, Option.bind_some, decDigit_hexChar n hn]; simp
    · have hq : n / 10 < 10 ^ fuel := Nat.div_lt_of_lt_mul (by rwa [← Nat.pow_succ'])
      rw [List.foldl_append, ih hq, List.foldl_cons, List.foldl_nil, pushDigit, Option.bind_some,
        decDigit_hexChar _ (Nat.mod_lt n (by decide)), Option.map_some, Nat.div_add_mod]

@[simp] theorem hexText_length (k n : Nat) : (hexText k n).length = k := by
  induction k generalizing n with
  | zero => rfl
  | succ k ih => rw [hexText, List.length_append, ih, List.length_singleton]

theorem decText_ne_nil (fuel n : Nat) : decText (fuel + 1) n ≠ [] := by
  rw [decText]
  split <;> simp

theorem parseDigits_hexText {k n : Nat} (hk : k ≠ 0) (h : n < 16 ^ k) : parseDigits 16 hexDigit (hexText k n) = some n := by
  rw [parseDigits_of_ne_nil _ _ (List.ne_nil_of_length_pos (by rw [hexText_length]; omega)), foldl_pushDigit_hexText,
    Nat.mod_eq_of_lt h]

theorem parseNat_unsignedText (v : Word) : parseNat (unsignedText v) = .ok v.toNat := by
  have hv : v.toNat < 10 ^ 10 := v.isLt.trans (by norm_num)
  rw [parseNat, unsignedText, parseDigits_of_ne_nil _ _ (decText_ne_nil _ _), foldl_pushDigit_decText hv]

/-! ### Printed characters -/

/-- A character that stands inside an operand: it ends neither the operand nor the line. -/
def isOperandChar (c : Char) : Bool := !isBlank c && c != ',' && c != ';'

theorem isOperandChar_iff {c : Char} : isOperandChar c = true ↔ isBlank c = false ∧ c ≠ ',' ∧ c ≠ ';' := by
  simp [isOperandChar, and_assoc]

/-- The text of one operand. -/
def IsOperandText (t : Text) : Prop := t ≠ [] ∧ ∀ c ∈ t, isOperandChar c = true

theorem hexText_chars {k n : Nat} : ∀ c ∈ hexText k n, ∃ d < 16, c = hexChar d := by
  induction k generalizing n with
  | zero => intro c hc; cases hc
  | succ k ih =>
    intro c hc
    rcases List.mem_append.1 hc with hc | hc
    · exact ih c hc
    · exact ⟨n % 16, Nat.mod_lt n (by decide), List.mem_singleton.1 hc⟩

theorem decText_chars {fuel n : Nat} : ∀ c ∈ decText fuel n, ∃ d < 10, c = hexChar d := by
  induction fuel generalizing n with
  | zero => intro c hc; cases hc
  | succ fuel ih =>
    intro c hc
    rw [decText] at hc
    split at hc
    · next hn => exact ⟨n, hn, List.mem_singleton.1 hc⟩
    · rcases List.mem_append.1 hc with hc | hc
      · exact ih c hc
      · exact ⟨n % 10, Nat.mod_lt n (by decide), List.mem_singleton.1 hc⟩

theorem isOperandChar_of_digit {c : Char} (h : ∃ d < 16, c = hexChar d) : isOperandChar c = true := by
  have hall : ∀ d < 16, isOperandChar (hexChar d) = true := by decide
  obtain ⟨d, hd, rfl⟩ := h
  exact hall d hd

theorem isOperandText_hexText {k : Nat} (hk : k ≠ 0) (n : Nat) : IsOperandText (hexText k n) := by
  exact ⟨List.ne_nil_of_length_pos (by rw [hexText_length]; omega), fun c hc => isOperandChar_of_digit (hexText_chars c hc)⟩

theorem isOperandText_hexLiteral (k n : Nat) : IsOperandText ('0' :: 'x' :: hexText k n) := by
  refine ⟨List.cons_ne_nil _ _, ?_⟩
  simp only [List.forall_mem_cons]
  exact ⟨by decide, by decide, fun c hc => isOperandChar_of_digit (hexText_chars c hc)⟩

theorem isOperandText_unsignedText (v : Word) : IsOperandText (unsignedText v) := by
  refine ⟨decText_ne_nil _ _, fun c hc => isOperandChar_of_digit ?_⟩
  obtain ⟨d, hd, hc⟩ := decText_chars c hc
  exact ⟨d, by omega, hc⟩

/-! ### Operands read back -/

theorem parseHex_hexText {k n : Nat} (hk : k ≠ 0) (h : n < 16 ^ k) : parseHex k (hexText k n) = .ok n := by
  rw [parseHex, parseDigits_hexText hk h]
  exact if_pos (hexText_length k n).le

theorem parseDataArg_hexText (v : Word) : parseDataArg ('0' :: 'x' :: hexText 8 v.toNat) = .ok (.lit v) := by
  have hlit : parseDataLit ('0' :: 'x' :: hexText 8 v.toNat) = (parseHex 8 (hexText 8 v.toNat)).map (BitVec.ofNat 32) := rfl
  have harg : parseDataArg ('0' :: 'x' :: hexText 8 v.toNat) = (parseDataLit ('0' :: 'x' :: hexText 8 v.toNat)).map .lit := rfl
  rw [harg, hlit, parseHex_hexText (by decide) (v.isLt.trans_le (by norm_num)), Except.map, Except.map, BitVec.ofNat_toNat,
    BitVec.setWidth_eq]

theorem parseValArg_hexText (v : DWord) : parseValArg ('0' :: 'x' :: hexText 16 v.toNat) = .ok (.lit v) := by
  have hlit : parseValLit ('0' :: 'x' :: hexText 16 v.toNat) = (parseHex 16 (hexText 16 v.toNat)).map (BitVec.ofNat 64) := rfl
  have harg : parseValArg ('0' :: 'x' :: hexText 16 v.toNat) = (parseValLit ('0' :: 'x' :: hexText 16 v.toNat)).map .lit := rfl
  rw [harg, hlit, parseHex_hexText (by decide) (v.isLt.trans_le (by norm_num)), Except.map, Except.map, BitVec.ofNat_toNat,
    BitVec.setWidth_eq]

/-- Decimal digits are read as an unsigned decimal: neither `$` nor `0x` can stand at their front. -/
theorem parseIndexArg_of_digits {t : Text} (h : ∀ c ∈ t, ∃ d < 10, c = hexChar d) :
    parseIndexArg t = ((parseNat t).bind fun n => wordOfInt n).map .lit := by
  have hno : ∀ d < 10, hexChar d ≠ '$' ∧ hexChar d ≠ 'x' := by decide
  have hlit : parseIndexLit t = (parseNat t).bind fun n => wordOfInt n := by
    unfold parseIndexLit
    split
    · obtain ⟨d, hd, hx⟩ := h 'x' (by simp)
      exact absurd hx.symm (hno d hd).2
    · rfl
  unfold parseIndexArg
  split
  · obtain ⟨d, hd, hx⟩ := h '$' (by simp)
    exact absurd hx.symm (hno d hd).1
  · rw [hlit]

theorem parseIndexArg_unsignedText (v : Word) : parseIndexArg (unsignedText v) = .ok (.lit v) := by
  have hv := v.isLt
  rw [parseIndexArg_of_digits (t := unsignedText v) decText_chars, parseNat_unsignedText, Except.bind,
    wordOfInt_of_fits (by omega), Except.map, BitVec.ofInt_natCast, BitVec.ofNat_toNat, BitVec.setWidth_eq]

theorem parseCwDigits_cwText (cw : CmdWord) : parseCwDigits (cwText cw) = .ok cw := by
  have hfits : commandWordFits cw.toNat = true := decide_eq_true cw.isLt
  rw [parseCwDigits, cwText, if_neg (by rw [hexText_length]; decide),
    parseDigits_hexText (by decide) (cw.isLt.trans_le (by norm_num))]
  simp [hfits]

/-! ### The parts of a line -/

theorem splitAt_of_not_mem {sep : Char} {t : Text} (h : sep ∉ t) : splitAt sep t = [t] := by
  induction t with
  | nil => rfl
  | cons c t ih =>
    rw [List.mem_cons, not_or] at h
    obtain ⟨hc, ht⟩ := h
    rw [splitAt, if_neg (Ne.symm hc), ih ht]

theorem splitAt_append_cons {sep : Char} {t : Text} (h : sep ∉ t) (u : Text) :
    splitAt sep (t ++ sep :: u) = t :: splitAt sep u := by
  induction t with
  | nil => rw [List.nil_append, splitAt, if_pos rfl]
  | cons c t ih =>
    rw [List.mem_cons, not_or] at h
    obtain ⟨hc, ht⟩ := h
    rw [List.cons_append, splitAt, if_neg (Ne.symm hc), ih ht]

theorem trimText_of_ends {t : Text} (hhead : ∀ c ∈ t.head?, isBlank c = false) (hlast : ∀ c ∈ t.getLast?, isBlank c = false) :
    trimText t = t := by
  have hdrop : ∀ {u : Text}, (∀ c ∈ u.head?, isBlank c = false) → u.dropWhile isBlank = u := by
    intro u hu
    cases u with
    | nil => rfl
    | cons c u => rw [List.dropWhile_cons_of_neg (by simp [hu c rfl])]
  rw [trimText, hdrop hhead, hdrop (by rwa [List.head?_reverse]), List.reverse_reverse]

theorem trimText_blank_cons (t : Text) : trimText (' ' :: t) = trimText t := rfl

theorem IsOperandText.trimText_eq {t : Text} (h : IsOperandText t) : trimText t = t :=
  trimText_of_ends (fun c hc => (isOperandChar_iff.1 (h.2 c (List.mem_of_mem_head? hc))).1)
    fun c hc => (isOperandChar_iff.1 (h.2 c (List.mem_of_getLast? hc))).1

theorem IsOperandText.not_mem_comma {t : Text} (h : IsOperandText t) : ',' ∉ t :=
  fun hc => (isOperandChar_iff.1 (h.2 _ hc)).2.1 rfl

theorem splitAt_ne_nil (sep : Char) (t : Text) : splitAt sep t ≠ [] := by
  cases t with
  | nil => exact List.cons_ne_nil _ _
  | cons c t =>
    rw [splitAt]
    split
    · exact List.cons_ne_nil _ _
    · split <;> exact List.cons_ne_nil _ _

/-- A blank before a text is trimmed from the first of its parts. -/
theorem map_trimText_splitAt_blank_cons (t : Text) :
    (splitAt ',' (' ' :: t)).map trimText = (splitAt ',' t).map trimText := by
  rw [splitAt, if_neg (by decide)]
  cases hs : splitAt ',' t with
  | nil => exact absurd hs (splitAt_ne_nil ',' t)
  | cons a as => rfl

/-- Operands as a line prints them, with a comma and a blank between two. -/
def operandsText (op : Text) : List Text → Text
  | [] => op
  | op' :: ops => op ++ ',' :: ' ' :: operandsText op' ops

section
variable {op : Text} {ops : List Text} (h : ∀ t ∈ op :: ops, IsOperandText t)
include h

/-- Printed operands are cut at the commas and trimmed back to what they were. -/
theorem splitAt_operandsText : (splitAt ',' (operandsText op ops)).map trimText = op :: ops := by
  induction ops generalizing op with
  | nil =>
    have hop := h op (by simp)
    rw [operandsText, splitAt_of_not_mem hop.not_mem_comma, List.map_singleton, hop.trimText_eq]
  | cons op' ops ih =>
    have hop := h op (by simp)
    have hrest := ih fun t ht => h t (List.mem_cons_of_mem _ ht)
    rw [operandsText, splitAt_append_cons hop.not_mem_comma, List.map_cons, hop.trimText_eq, map_trimText_splitAt_blank_cons,
      hrest]

theorem operandsText_chars : ∀ c ∈ operandsText op ops, c ≠ ';' := by
  induction ops generalizing op with
  | nil => exact fun c hc => (isOperandChar_iff.1 ((h op (by simp)).2 c hc)).2.2
  | cons op' ops ih =>
    have hrest := ih fun t ht => h t (List.mem_cons_of_mem _ ht)
    have hop : ∀ c ∈ op, c ≠ ';' := fun c hc => (isOperandChar_iff.1 ((h op (by simp)).2 c hc)).2.2
    simp only [operandsText, List.forall_mem_append, List.forall_mem_cons]
    exact ⟨hop, by decide, by decide, hrest⟩

/-- Printed operands end as the last of them ends. -/
theorem operandsText_last : ∃ init last, operandsText op ops = init ++ [last] ∧ isBlank last = false := by
  induction ops generalizing op with
  | nil =>
    obtain ⟨hne, hchars⟩ := h op (by simp)
    exact ⟨op.dropLast, op.getLast hne, (List.dropLast_append_getLast hne).symm,
      (isOperandChar_iff.1 (hchars _ (List.getLast_mem hne))).1⟩
  | cons op' ops ih =>
    obtain ⟨init, last, heq, hlast⟩ := ih fun t ht => h t (List.mem_cons_of_mem _ ht)
    exact ⟨op ++ ',' :: ' ' :: init, last, by simp [operandsText, heq], hlast⟩

/-- Printed operands begin as the first of them begins. -/
theorem operandsText_first : ∃ first rest, operandsText op ops = first :: rest ∧ isBlank first = false := by
  obtain ⟨hne, hchars⟩ := h op (by simp)
  obtain ⟨c, t, rfl⟩ := List.exists_cons_of_ne_nil hne
  have hc := (isOperandChar_iff.1 (hchars c (by simp))).1
  cases ops with
  | nil => exact ⟨c, t, rfl, hc⟩
  | cons op' ops => exact ⟨c, _, rfl, hc⟩

theorem trimText_operandsText : trimText (operandsText op ops) = operandsText op ops := by
  obtain ⟨first, rest, hfirst, hf⟩ := operandsText_first h
  obtain ⟨init, last, hlast, hl⟩ := operandsText_last h
  refine trimText_of_ends (by simpa [hfirst] using hf) ?_
  simpa [hlast] using hl

end

/-! ### Lines -/

/-- The mnemonic of a line: it begins neither a comment nor a binding. -/
def IsMnemonicText (t : Text) : Prop := IsOperandText t ∧ t.head? ≠ some '$'

theorem isMnemonicText_of {t : Text} (hne : t ≠ []) (hchars : t.all isOperandChar = true) (hd : t.head? ≠ some '$') :
    IsMnemonicText t :=
  ⟨⟨hne, List.all_eq_true.1 hchars⟩, hd⟩

theorem parseCommandText_operands {mn op : Text} {ops : List Text} (hmn : IsOperandText mn)
    (h : ∀ t ∈ op :: ops, IsOperandText t) :
    parseCommandText (mn ++ ' ' :: operandsText op ops) = parseCommand (mn.map capital) (op :: ops) := by
  have hp : ∀ c ∈ mn, (!isBlank c) = true := fun c hc => by simp [(isOperandChar_iff.1 (hmn.2 c hc)).1]
  have hblank : isBlank ' ' = true := rfl
  obtain ⟨first, rest, hfirst, -⟩ := operandsText_first h
  simp only [parseCommandText, List.takeWhile_append_of_pos hp, List.dropWhile_append_of_pos hp, List.takeWhile_cons,
    List.dropWhile_cons, hblank, Bool.not_true, Bool.false_eq_true, if_false, List.append_nil, trimText_blank_cons,
    trimText_operandsText h, splitAt_operandsText h]
  rw [if_neg (by simp [hfirst])]

/-- A printed line is one command without a binding. -/
theorem parseLine_operands {mn op : Text} {ops : List Text} (hmn : IsMnemonicText mn)
    (h : ∀ t ∈ op :: ops, IsOperandText t) :
    parseLine (mn ++ ' ' :: operandsText op ops) =
      (parseCommand (mn.map capital) (op :: ops)).map fun c => some { bind := none, command := c } := by
  obtain ⟨⟨hne, hchars⟩, hdollar⟩ := hmn
  rw [← parseCommandText_operands ⟨hne, hchars⟩ h]
  obtain ⟨c, t, rfl⟩ := List.exists_cons_of_ne_nil hne
  obtain ⟨init, last, hlast, hl⟩ := operandsText_last h
  have hline : ∀ x ∈ c :: t ++ ' ' :: operandsText op ops, decide (x ≠ ';') = true := by
    simp only [List.forall_mem_append, List.forall_mem_cons (a := ' '), decide_eq_true_eq]
    exact ⟨fun x hx => (isOperandChar_iff.1 (hchars x hx)).2.2, by decide, operandsText_chars h⟩
  have hend : c :: t ++ ' ' :: operandsText op ops = (c :: t ++ ' ' :: init) ++ [last] := by simp [hlast]
  have htrim : trimText (c :: t ++ ' ' :: operandsText op ops) = c :: t ++ ' ' :: operandsText op ops := by
    refine trimText_of_ends (by simpa using (isOperandChar_iff.1 (hchars c (by simp))).1) ?_
    rw [hend, List.getLast?_concat]
    simpa using hl
  rw [parseLine, List.takeWhile_eq_self_iff.2 hline, htrim]
  split
  · next heq => cases heq
  · next heq => injection heq with heq _; exact absurd (congrArg some heq) hdollar
  · rfl

/-- Assembling a printed line gives the word of its command. -/
theorem assembleText_operands {mn op : Text} {ops : List Text} {c : AsmCommand} (hmn : IsMnemonicText mn)
    (h : ∀ t ∈ op :: ops, IsOperandText t) (hc : parseCommand (mn.map capital) (op :: ops) = .ok c) :
    assembleText (mn ++ ' ' :: operandsText op ops) = c.literalWord := by
  rw [assembleText, parseLine_operands hmn h, hc, Except.map]

theorem assembleText_insert (src ins ridx lidx : Word) :
    assembleText ("INSERT".toList ++ ' ' :: operandsText ('0' :: 'x' :: hexText 8 src.toNat)
      ['0' :: 'x' :: hexText 8 ins.toNat, unsignedText ridx, unsignedText lidx]) = some (encode (.insert src ins ridx lidx)) := by
  refine assembleText_operands (c := .insert (.lit src) (.lit ins) (.lit ridx) (.lit lidx)) ?_ ?_ ?_
  · exact isMnemonicText_of (by decide) (by decide) (by decide)
  · simp only [List.forall_mem_cons, List.not_mem_nil, false_imp_iff, implies_true, and_true]
    exact ⟨isOperandText_hexLiteral 8 _, isOperandText_hexLiteral 8 _, isOperandText_unsignedText _, isOperandText_unsignedText _⟩
  · rw [show "INSERT".toList.map capital = "INSERT".toList by decide, parseCommand, if_pos rfl]
    simp only [parseDataArg_hexText, parseIndexArg_unsignedText, Except.bind, Except.map]

theorem assembleText_tobin (val : DWord) :
    assembleText ("TOBIN".toList ++ ' ' :: operandsText ('0' :: 'x' :: hexText 16 val.toNat) []) = some (encode (.tobin val)) := by
  refine assembleText_operands (c := .tobin (.lit val)) ?_ ?_ ?_
  · exact isMnemonicText_of (by decide) (by decide) (by decide)
  · exact List.forall_mem_singleton.2 (isOperandText_hexLiteral 16 val.toNat)
  · rw [show "TOBIN".toList.map capital = "TOBIN".toList by decide, parseCommand, if_neg (by decide), if_pos rfl]
    simp only [parseValArg_hexText, Except.map]

theorem assembleText_cw (cw : CmdWord) : assembleText (".cw".toList ++ ' ' :: operandsText (cwText cw) []) = some cw := by
  refine assembleText_operands (c := .cw cw) ?_ ?_ ?_
  · exact isMnemonicText_of (by decide) (by decide) (by decide)
  · exact List.forall_mem_singleton.2 (isOperandText_hexText (by decide) cw.toNat)
  · have hcap : ".cw".toList.map capital = ".CW".toList := by decide
    rw [hcap]
    simp [parseCommand, parseCwDigits_cwText, Except.map]

/-- An INSERT word is printed with its operands in the order of the fields from the low end (30_encoding.md R87). -/
theorem disassemble_insert {cw : CmdWord} {src ins ridx lidx : Word} (h : decode cw = .insert src ins ridx lidx) :
    disassemble cw = "INSERT".toList ++ ' ' :: operandsText ('0' :: 'x' :: hexText 8 src.toNat)
      ['0' :: 'x' :: hexText 8 ins.toNat, unsignedText ridx, unsignedText lidx] := by
  simp [disassemble, h, operandsText]

theorem disassemble_tobin {cw : CmdWord} {val : DWord} (h : decode cw = .tobin val) :
    disassemble cw = "TOBIN".toList ++ ' ' :: operandsText ('0' :: 'x' :: hexText 16 val.toNat) [] := by
  simp [disassemble, h, operandsText]

theorem cwLine_eq (cw : CmdWord) : ".cw ".toList ++ cwText cw = ".cw".toList ++ ' ' :: operandsText (cwText cw) [] := by
  simp [operandsText]

/-- Settles O48: a printed line is a mnemonic and its operands, and each operand is read back. -/
theorem disassemblyAssemblesBack : Obligations.DisassemblyAssemblesBack := by
  intro cw
  rw [cwLine_eq, assembleText_cw]
  refine ⟨?_, rfl⟩
  cases hdec : decode cw with
  | insert src ins ridx lidx => rw [disassemble_insert hdec, assembleText_insert]
  | tobin val => rw [disassemble_tobin hdec, assembleText_tobin]

end Sys2Proof.Machine
end

section
/-! What INSERT reports (40_insert.md R102, R105, 93_implementation_defined.md I1). -/

namespace Sys2Proof.Machine

/-- The STATUS is the error that validation answers, and OK when it answers none. -/
theorem rspStatus_insert (src ins ridx lidx : Word) :
    rspStatus (commandResponse (.insert src ins ridx lidx)) = (validate ridx lidx).getD .ok := by
  rw [commandResponse_insert, insertResponse]
  cases validate ridx lidx with
  | some e => exact rspStatus_raiseError e
  | none => exact rspStatus_respond .ok _

/-- Executing an INSERT that validation rejects is a cycle that issues the error response. -/
theorem exec_insert_of_error (src ins : Word) {ridx lidx : Word} {e : Status} (h : validate ridx lidx = some e) (s : State) :
    exec (.insert src ins ridx lidx) s = .next (issueCycle (raiseError e) s) := by
  rw [exec_eq, commandResponse_insert, insertResponse_of_error src ins h]

/-- Settles O5, check by check. -/
theorem insertValidationRaisesTheFirstError : Obligations.InsertValidationRaisesTheFirstError := by
  intro src ins ridx lidx s
  refine ⟨fun hrl => exec_insert_of_error (e := .eOrder) src ins ?_ s,
    fun hrl hr => exec_insert_of_error (e := .eRightOor) src ins ?_ s,
    fun hr hl => exec_insert_of_error (e := .eLeftOor) src ins ?_ s⟩
  · rw [validate_eq, if_pos hrl]
  · rw [validate_eq, if_neg (by omega), if_pos hr]
  · rw [validate_eq, if_neg (by omega), if_neg (by omega), if_pos hl]

/-- Settles O7: the branches of validation exclude each other, and each has its own code. -/
theorem insertStatusIsExact : Obligations.InsertStatusIsExact := by
  intro src ins ridx lidx e
  have he : e = (validate ridx lidx).getD .ok := rspStatus_insert src ins ridx lidx
  rw [validate_eq] at he
  split_ifs at he
  all_goals
    simp only [he, Option.getD_some, Option.getD_none, reduceCtorEq, true_iff, false_iff]
    omega

theorem mem_applicableErrors (ridx lidx : Word) (x : Status) :
    x ∈ applicableErrors ridx lidx ↔ (x = .eOrder ∧ ridx.toNat > lidx.toNat) ∨ (x = .eRightOor ∧ ridx.toNat > 31) ∨
      (x = .eLeftOor ∧ lidx.toNat > 31) := by
  simp only [applicableErrors, validationOrder, List.mem_map, List.mem_filter, List.mem_cons, List.not_mem_nil, or_false,
    or_and_right, exists_or, and_assoc, exists_eq_left, IndexCheck.violated, IndexCheck.error, decide_eq_true_eq]
  tauto

/-- INSERT reports OK when no error applies and otherwise an error that does. -/
theorem rspStatus_insert_cases (src ins ridx lidx : Word) :
    (rspStatus (commandResponse (.insert src ins ridx lidx)) = .ok ∧ applicableErrors ridx lidx = []) ∨
      (rspStatus (commandResponse (.insert src ins ridx lidx)) ≠ .ok ∧
        rspStatus (commandResponse (.insert src ins ridx lidx)) ∈ applicableErrors ridx lidx) := by
  rw [rspStatus_insert, validate]
  cases h : applicableErrors ridx lidx with
  | nil => exact .inl ⟨rfl, rfl⟩
  | cons e es =>
    have he : e ∈ applicableErrors ridx lidx := h ▸ List.mem_cons_self
    refine .inr ⟨?_, List.mem_cons_self⟩
    rintro rfl
    simp [mem_applicableErrors] at he

/-- Settles O14: each code is reported exactly under its condition, and it is one of those that apply. -/
theorem insertErrorIsAnApplicableOne : Obligations.InsertErrorIsAnApplicableOne := by
  intro src ins ridx lidx e
  obtain ⟨horder, hright, hleft, hok⟩ := insertStatusIsExact src ins ridx lidx
  refine ⟨horder.1, fun h => (hright.1 h).2, fun h => (hleft.1 h).2, hok.trans (by omega), mem_applicableErrors ridx lidx, ?_⟩
  obtain ⟨heq, hnil⟩ | ⟨hne, hmem⟩ := rspStatus_insert_cases src ins ridx lidx
  · exact ⟨iff_of_true heq hnil, absurd heq⟩
  · exact ⟨iff_of_false hne (List.ne_nil_of_mem hmem), fun _ => hmem⟩

end Sys2Proof.Machine
end

section
/-! The result of INSERT, whole and bit by bit (40_insert.md R103, R107 to R111, R114). -/

namespace Sys2Proof.Machine

/-- A 32-bit result leaves the upper part of DATA zero (30_encoding.md R78). -/
theorem respond_upperBits (e : Status) (x : Word) : (respond e (x.setWidth 512)).extractLsb' 32 480 = 0#480 := by
  ext k hk
  rw [BitVec.getElem_extractLsb', respond_getLsbD, if_pos (by omega), BitVec.getLsbD_setWidth,
    BitVec.getLsbD_of_ge x _ (by omega)]
  simp

/-- Settles O6: the masks written out are those of `insertResult`. -/
theorem insertComputesItsResult : Obligations.InsertComputesItsResult := by
  intro src ins ridx lidx s hrl hl
  refine ⟨_, exec_eq _ s, ?_⟩
  rw [commandResponse_insert, insertResponse_of_validRange src ins ((validRange_iff _ _).2 ⟨hrl, hl⟩)]
  exact ⟨respond_statusBits .ok _, respond_upperBits .ok _, rspWord32_respond .ok (insertResult src ins ridx.toNat lidx.toNat)⟩

theorem resOf_getLsbD (src ins : Word) {ridx lidx : Word} (h : validRange ridx lidx = true) {k : Nat} (hk : k < 32) :
    (resOf src ins ridx lidx).getLsbD k =
      if ridx.toNat ≤ k ∧ k ≤ lidx.toNat then ins.getLsbD (k - ridx.toNat) else src.getLsbD k :=
  (commandResponse_of_validRange src ins h).2 k hk

/-- Settles O8: the bits of a valid range's result. -/
theorem insertBitLaw : Obligations.InsertBitLaw :=
  fun src ins _ _ h _ hk => resOf_getLsbD src ins h hk

/-- The result depends on INS only through its low `w` bits. -/
theorem insertResult_congr (src : Word) {ins ins' : Word} {r l : Nat} (hrl : r ≤ l)
    (h : ∀ k < l - r + 1, ins.getLsbD k = ins'.getLsbD k) : insertResult src ins r l = insertResult src ins' r l := by
  refine BitVec.eq_of_getLsbD_eq fun k hk => ?_
  rw [insertResult_getLsbD src ins hrl hk, insertResult_getLsbD src ins' hrl hk]
  split_ifs with hin
  · exact h _ (by omega)
  · rfl

/-- Settles O9: over a valid range the response is its result, which reads only the low `w` bits of INS. -/
theorem insertIgnoresBitsAboveTheWidth : Obligations.InsertIgnoresBitsAboveTheWidth := by
  intro src ins ins' ridx lidx h hlow
  refine ⟨?_, (commandResponse_of_validRange src ins h).1⟩
  rw [commandResponse_insert, commandResponse_insert, insertResponse_of_validRange src ins h,
    insertResponse_of_validRange src ins' h, insertResult_congr src ((validRange_iff _ _).1 h).1 hlow]

/-- Settles O10: the two masks are closed words, and the full range takes every bit from INS. -/
theorem insertFullRangeIsIns : Obligations.InsertFullRangeIsIns :=
  ⟨ones_full, by decide, fun src ins => (commandResponse_of_full_range src ins).symm⟩

/-- Settles O11: with `l = 31` a bit is in the range exactly when it is not below `r`. -/
theorem insertSignBitLaw : Obligations.InsertSignBitLaw := by
  intro src ins ridx hr res
  have hbit : ∀ k < 32, res.getLsbD k = if ridx.toNat ≤ k ∧ k ≤ 31 then ins.getLsbD (k - ridx.toNat) else src.getLsbD k :=
    fun k hk => resOf_getLsbD src ins ((validRange_iff ridx 31#32).2 ⟨hr, le_rfl⟩) hk
  refine ⟨?_, fun k hk => ?_, fun k hrk hk => ?_⟩
  · rw [hbit 31 (by omega), if_pos ⟨hr, le_rfl⟩]
  · rw [hbit k (by omega), if_neg (by omega)]
  · rw [hbit k hk, if_pos ⟨hrk, by omega⟩]

/-- Settles O12: an INSERT of one bit. -/
theorem insertWidthOneLaw : Obligations.InsertWidthOneLaw :=
  fun src ins _ hn => (commandResponse_of_bit src ins hn).2

theorem resOf_own_bits (src : Word) {ridx lidx : Word} (h : validRange ridx lidx = true) :
    resOf src ((src >>> ridx.toNat) &&& ones (lidx.toNat - ridx.toNat + 1)) ridx lidx = src := by
  refine BitVec.eq_of_getLsbD_eq fun k hk => ?_
  rw [resOf_getLsbD _ _ h hk]
  split_ifs with hin
  · have hlt : k - ridx.toNat < 32 := by omega
    have hw : k - ridx.toNat < lidx.toNat - ridx.toNat + 1 := by omega
    rw [BitVec.getLsbD_and, BitVec.getLsbD_ushiftRight, ones_getLsbD, Nat.add_sub_cancel' hin.1, decide_eq_true hlt,
      decide_eq_true hw, Bool.and_self, Bool.and_true]
  · rfl

theorem resOf_resOf_same_range (src a b : Word) {ridx lidx : Word} (h : validRange ridx lidx = true) :
    resOf (resOf src a ridx lidx) b ridx lidx = resOf src b ridx lidx := by
  refine BitVec.eq_of_getLsbD_eq fun k hk => ?_
  rw [resOf_getLsbD _ _ h hk, resOf_getLsbD _ _ h hk, resOf_getLsbD _ _ h hk]
  split_ifs <;> rfl

theorem resOf_comm_of_disjoint (src a b : Word) {r₁ l₁ r₂ l₂ : Word} (h₁ : validRange r₁ l₁ = true)
    (h₂ : validRange r₂ l₂ = true) (hlr : l₁.toNat < r₂.toNat) :
    resOf (resOf src a r₁ l₁) b r₂ l₂ = resOf (resOf src b r₂ l₂) a r₁ l₁ := by
  refine BitVec.eq_of_getLsbD_eq fun k hk => ?_
  rw [resOf_getLsbD _ _ h₂ hk, resOf_getLsbD _ _ h₁ hk, resOf_getLsbD _ _ h₁ hk, resOf_getLsbD _ _ h₂ hk]
  by_cases hin : r₁.toNat ≤ k ∧ k ≤ l₁.toNat
  · have hout : ¬(r₂.toNat ≤ k ∧ k ≤ l₂.toNat) := by omega
    rw [if_neg hout, if_pos hin, if_pos hin]
  · rw [if_neg hin, if_neg hin]

/-- Settles O13: each law holds bit by bit, inside and outside the ranges. -/
theorem insertAlgebra : Obligations.InsertAlgebra :=
  ⟨fun src _ _ h => resOf_own_bits src h, fun src a b _ _ h => resOf_resOf_same_range src a b h,
    fun src a b _ _ _ _ h₁ h₂ hlr => resOf_comm_of_disjoint src a b h₁ h₂ hlr⟩

end Sys2Proof.Machine
end

section
/-! The string a TOBIN answers with, and the way back from it to the pattern (41_tobin.md R122, R124, R126 to R129). -/

namespace Sys2Proof.Machine

/-! ### The response -/

/-- The STATUS bits lie above all 64 bytes of DATA (30_encoding.md R76, R80). -/
theorem dataByte_rspData (rw : RspWord) {i : Nat} (hi : i < 64) : dataByte (rspData rw) i = rw.extractLsb' (8 * i) 8 := by
  ext k hk
  have hin : 8 * i + k < 512 := by omega
  rw [dataByte, rspData, BitVec.getElem_extractLsb', BitVec.getElem_extractLsb', BitVec.getLsbD_extractLsb',
    decide_eq_true hin, Bool.true_and, Nat.zero_add]

/-- Settles O15: the cycle issues `tobinResponse`, whose bytes are those of `tobinData`. -/
theorem tobinWritesTheBitString : Obligations.TobinWritesTheBitString := by
  intro val s
  refine ⟨tobinResponse val, ?_, respond_statusBits .ok _, fun i hi => ?_⟩
  · rw [exec_eq, commandResponse_tobin]
  · rw [← dataByte_rspData _ hi, tobinResponse, rspData_respond]
    exact dataByte_tobinData val hi

/-- Settles O19: bit 128 makes the word a TOBIN, and a TOBIN's response is formed with `OK`. -/
theorem tobinNeverFails : Obligations.TobinNeverFails := by
  intro cw h
  rw [F_eq_commandResponse, decode_tobin_of_bit h, commandResponse_tobin, tobinResponse, rspStatus_respond]

/-! ### The string -/

theorem rspString_commandResponse_tobin (val : DWord) : rspString (commandResponse (.tobin val)) = binaryString val := by
  rw [commandResponse_tobin, rspString_tobinResponse]

theorem bitChar_zero_or_one (b : Bool) : bitChar b = '0' ∨ bitChar b = '1' := by cases b <;> decide

/-- Settles O17: the string has a character for each of the 64 positions, and each is that of a bit. -/
theorem tobinStringHasSixtyFourCharacters : Obligations.TobinStringHasSixtyFourCharacters := by
  intro val
  refine ⟨rspString_commandResponse_tobin val, binaryString_length val, fun c hc => ?_⟩
  obtain ⟨i, -, rfl⟩ := List.mem_map.1 hc
  exact bitChar_zero_or_one _

/-- Settles O18: the strings of three closed patterns. -/
theorem tobinKnownStrings : Obligations.TobinKnownStrings := by
  refine ⟨?_, ?_, ?_⟩ <;>
  · rw [rspString_commandResponse_tobin]
    decide

/-- A position that lies in a field of the pattern shows the field's bit, counted from the field's own low end. -/
theorem binaryString_getElem?_field (val : DWord) {start len i k : Nat} (hi : i < 64) (hk : k < len) (h : 63 - i = start + k) :
    (binaryString val)[i]? = some (bitChar ((val.extractLsb' start len).getLsbD k)) := by
  rw [binaryString_getElem? val hi, stringChar, h, BitVec.getLsbD_extractLsb', decide_eq_true hk, Bool.true_and]

/-- Settles O20: the three fields are bit 63, the 11 bits from 52 and the 52 bits from 0. -/
theorem tobinFieldView : Obligations.TobinFieldView := fun val =>
  ⟨binaryString_getElem? val (by decide), fun _ _ => binaryString_getElem?_field val (by omega) (by omega) (by omega),
    fun _ _ => binaryString_getElem?_field val (by omega) (by omega) (by omega)⟩

/-! ### From the string, and from DATA, back to the pattern -/

theorem charDigit_bitChar (b : Bool) : charDigit (bitChar b) = b.toNat := by cases b <;> decide

/-- The digits of a number from place `n - 1` down, each at its weight, sum to the number's low `n` bits. -/
theorem sum_binaryDigits (x n : Nat) :
    ((List.range n).map fun i => (x.testBit (n - 1 - i)).toNat * 2 ^ (n - 1 - i)).sum = x % 2 ^ n := by
  induction n with
  | zero => rw [pow_zero, Nat.mod_one]; rfl
  | succ n ih =>
    rw [List.range_succ_eq_map, List.map_cons, List.map_map, List.sum_cons, Nat.mod_pow_succ, ← Nat.toNat_testBit, ← ih,
      Nat.add_comm, Nat.mul_comm (2 ^ n)]
    simp only [Function.comp_def, Nat.succ_eq_add_one, Nat.add_sub_cancel, Nat.sub_zero, Nat.sub_sub, Nat.add_comm 1]

theorem parseBinary_binaryString (val : DWord) : parseBinary (binaryString val) = val.toNat := by
  have hdigit : ∀ i ∈ List.range 64, charDigit ((binaryString val).getD i '0') * 2 ^ (63 - i) =
      (val.toNat.testBit (63 - i)).toNat * 2 ^ (63 - i) := fun i hi => by
    rw [List.getD_eq_getElem?_getD, binaryString_getElem? val (List.mem_range.1 hi), Option.getD_some, stringChar,
      charDigit_bitChar]
    rfl
  calc parseBinary (binaryString val)
      = ((List.range 64).map fun i => (val.toNat.testBit (63 - i)).toNat * 2 ^ (63 - i)).sum :=
        congrArg List.sum (List.map_congr_left hdigit)
    _ = val.toNat % 2 ^ 64 := sum_binaryDigits val.toNat 64
    _ = val.toNat := Nat.mod_eq_of_lt val.isLt

theorem parseBinary_rspString_tobin (val : DWord) : parseBinary (rspString (commandResponse (.tobin val))) = val.toNat := by
  rw [rspString_commandResponse_tobin, parseBinary_binaryString]

/-- A host reads the string from DATA alone. -/
theorem rspString_congr {a b : RspWord} (h : rspData a = rspData b) : rspString a = rspString b := by
  rw [rspString, h, rspString]

/-- The pattern whose bit `63 - i` says whether byte `i` of DATA is the code of `'1'`. -/
def patternOfData (data : RspData) : DWord := BitVec.ofFnLE fun k : Fin 64 => decide (dataByte data (63 - k) = Config.char1)

theorem patternOfData_getLsbD (data : RspData) {i : Nat} (hi : i < 64) :
    (patternOfData data).getLsbD (63 - i) = decide (dataByte data i = Config.char1) := by
  have hk : 63 - i < 64 := by omega
  have hback : 63 - (63 - i) = i := by omega
  rw [patternOfData, BitVec.getLsbD_eq_getElem hk, BitVec.getElem_ofFnLE, hback]

/-- A DATA value of character codes is the DATA of a TOBIN of its pattern. -/
theorem tobinData_patternOfData {data : RspData}
    (h : ∀ i < 64, dataByte data i = Config.char0 ∨ dataByte data i = Config.char1) : tobinData (patternOfData data) = data := by
  refine data_ext fun i hi => ?_
  rw [dataByte_tobinData _ hi, patternOfData_getLsbD data hi]
  obtain hb | hb := h i hi <;> rw [hb] <;> decide

theorem dataByte_tobinData_cases (val : DWord) {i : Nat} (hi : i < 64) :
    dataByte (tobinData val) i = Config.char0 ∨ dataByte (tobinData val) i = Config.char1 := by
  rw [dataByte_tobinData val hi]
  split_ifs
  · exact .inr rfl
  · exact .inl rfl

theorem rspData_commandResponse_tobin (val : DWord) : rspData (commandResponse (.tobin val)) = tobinData val := by
  rw [commandResponse_tobin, tobinResponse, rspData_respond]

/-- Settles O16: `parse` undoes the string, so DATA determines VAL, and `patternOfData` finds the VAL of a DATA of codes. -/
theorem tobinRoundTrip : Obligations.TobinRoundTrip := by
  refine ⟨parseBinary_rspString_tobin, fun val val' h => ?_, fun data => ⟨fun h => ⟨patternOfData data, ?_⟩, ?_⟩⟩
  · have hstr := congrArg parseBinary (rspString_congr h)
    rw [parseBinary_rspString_tobin, parseBinary_rspString_tobin] at hstr
    exact BitVec.eq_of_toNat_eq hstr
  · rw [rspData_commandResponse_tobin, tobinData_patternOfData h]
  · rintro ⟨val, rfl⟩ i hi
    rw [rspData_commandResponse_tobin]
    exact dataByte_tobinData_cases val hi

end Sys2Proof.Machine
end

section
/-! What every step records, a reset edge among them, and what a reset edge drops (70_reset_and_hazards.md R160, R161, R166). -/

namespace Sys2Proof.Machine

/-- What a host reads in a cycle is what the cycle delivers: `rspWord` is the wire when the port is valid. -/
theorem recorded_eq_delivered (s : State) :
    (if s.rspValid then [s.rspWord] else []) = delivered (portSlot s.commandSlot s.slots) := by
  rw [delivered_port]
  split
  · next hv => rw [rspWord_of_valid hv]
  · rfl

theorem resets_eq_true_iff {s : State} : s.resets = true ↔ s.drive.rst = true ∧ s.slots ≠ [] := by
  simp [State.resets]

theorem step_of_resets {s : State} (h : s.resets = true) : step s = .next (resetCycle { s with inputs := s.inputs.tail }) := by
  rw [step_eq, if_pos h]

/-- In a reset cycle too the host receives what stands valid on the port (log entry 7). -/
theorem resetCycle_records {s : State} (h : s.resets = true) (inputs : List Drive) :
    (resetCycle { s with inputs := inputs }).responses = s.responses ++ (if s.rspValid then [s.rspWord] else []) := by
  rw [recorded_eq_delivered, ← registeredResponse_eq _ (resets_eq_true_iff.1 h).2]
  rfl

/-- Settles O26: a reset edge and a move of the pipeline both deliver the port and keep the number of slots. -/
theorem stepRecordsTheValidPort : Obligations.StepRecordsTheValidPort := by
  intro s t h
  rcases step_next h with ⟨hr, rfl⟩ | ⟨-, -, rfl⟩
  · exact ⟨rfl, clearedSlots_length _ _, resetCycle_records hr _⟩
  · refine ⟨rfl, shiftSlots_length _ _, ?_⟩
    rw [recorded_eq_delivered, clockCycle_responses]

/-- In the zero-latency form a step looks at the command of the cycle and not at `rst`. -/
theorem step_of_no_slots {s : State} (hs : s.slots = []) (d : Drive) (rest : List Drive) :
    step { s with inputs := d :: rest } =
      if d.undriven then .refused .undrivenCommandWord
      else .next (clockCycle ⟨d.cmdValid, drivenResponse d s.freeTick⟩ { s with inputs := rest }) := by
  have hr : ({ s with inputs := d :: rest } : State).resets = false := resets_eq_false (.inr hs)
  rw [step_eq, if_neg (by simp [hr])]
  rfl

/-- Settles O31: a reset edge goes to `resetCycle`, which reads nothing of what is driven. -/
theorem resetEdgeDropsTheCommand : Obligations.ResetEdgeDropsTheCommand := by
  refine ⟨fun s d rest hs hd => ?_, fun s d rest hs => ?_⟩
  · have hstep : ∀ d' : Drive, d'.rst = true →
        step { s with inputs := d' :: rest } = .next (resetCycle { s with inputs := rest }) :=
      fun d' hd' => step_of_resets (resets_eq_true_iff.2 ⟨hd', hs⟩)
    exact ⟨_, hstep d hd, clearedSlots_length _ _, fun x hx => clearedSlots_invalid hx, rfl, hstep⟩
  · rw [step_of_no_slots hs, step_of_no_slots hs]
    rfl

/-- Settles O32: the cleared slots hold no response, so the account is what is recorded and what is driven from then on. -/
theorem resetEdgeLosesWhatIsInFlight : Obligations.ResetEdgeLosesWhatIsInFlight := by
  intro s t hr h
  obtain rfl : resetCycle { s with inputs := s.inputs.tail } = t := by
    rw [step_of_resets hr] at h
    injection h
  have hflight : inFlight (resetCycle { s with inputs := s.inputs.tail }).slots = [] := inFlight_cleared _ _
  refine ⟨hflight, ?_⟩
  rw [State.account, hflight, List.append_nil, resetCycle_records hr, resetCycle_inputs]

end Sys2Proof.Machine
end

section
/-! How long a response is on its way: from `S[1]` to the port in `N` cycles (70_reset_and_hazards.md R165, R167, R168). -/

namespace Sys2Proof.Machine

/-! ### At the ports -/

/-- The port shows the slot `S[N]`. -/
theorem portSlot_of_last (new : Slot) {slots : List Slot} {k : Nat} {x : Slot} (hx : slots[k]? = some x)
    (hk : k + 1 = slots.length) : portSlot new slots = x := by
  rw [portSlot, List.getLast?_eq_getElem?, ← hk, Nat.add_sub_cancel, hx, Option.getD_some]

theorem rspWord_of_port {s : State} {w : RspWord} (h : portSlot s.commandSlot s.slots = ⟨true, w⟩) :
    s.rspValid = true ∧ s.rspWord = w := by
  have hv : s.rspValid = true := by rw [State.rspValid, h]
  exact ⟨hv, by rw [rspWord_of_valid hv, State.rspWire, h]⟩

/-- The current cycle is plain if the inputs driven next are, past their end too. -/
theorem drive_plain_of_take {s : State} {k : Nat} (h : ∀ d ∈ s.inputs.take (k + 1), d.plain = true) : s.drive.plain = true := by
  unfold State.drive
  cases hi : s.inputs with
  | nil => rfl
  | cons d ds => exact h d (by simp [hi])

/-- Over `k` plain cycles an entry moves up by `k` slots. -/
theorem run_moves_slot (k : Nat) {s : State} {p : Nat} {x : Slot} (hp : p + k < s.stages) (hx : s.slots[p]? = some x)
    (hplain : ∀ d ∈ s.inputs.take k, d.plain = true) :
    ∃ t, Sys2Proof.core.run k s = .next t ∧ t.stages = s.stages ∧ t.slots[p + k]? = some x := by
  induction k generalizing s p with
  | zero => exact ⟨s, run_zero s, rfl, hx⟩
  | succ k ih =>
    have hstep := step_of_plain (drive_plain_of_take hplain)
    have hlen := shiftSlots_length s.commandSlot s.slots
    have hmoved : (shiftSlots s.commandSlot s.slots)[p + 1]? = some x := by
      rw [shiftSlots_succ _ (by rw [State.stages] at hp; omega), hx]
    have hrest : ∀ d ∈ s.inputs.tail.take k, d.plain = true := fun d hd => by
      rw [← List.drop_one, List.take_drop, Nat.add_comm] at hd
      exact hplain d (List.mem_of_mem_drop hd)
    obtain ⟨t, hrun, hst, hslot⟩ := ih (s := clockCycle s.commandSlot { s with inputs := s.inputs.tail }) (p := p + 1)
      (by rw [State.stages, clockCycle_slots, hlen, ← State.stages]; omega) hmoved hrest
    exact ⟨t, (run_succ k hstep).trans hrun, hst.trans hlen, by rwa [Nat.add_right_comm] at hslot⟩

/-- Settles O29: with no slots the port shows the command of the cycle; with `n + 1` the first step puts its response into `S[1]`
and the next `n` move it to the port. -/
theorem latencyIsTheNumberOfStages : Obligations.LatencyIsTheNumberOfStages := by
  intro s cw rest hin hplain
  have hd : s.drive = Drive.issue cw := drive_of_inputs hin
  have hcmd : s.commandSlot = ⟨true, F cw⟩ := by rw [commandSlot_of_word (cw := cw) (by rw [hd]; rfl), hd]; rfl
  cases hn : s.stages with
  | zero =>
    refine ⟨s, run_zero s, rspWord_of_port ?_⟩
    rw [port_of_no_slots (List.eq_nil_of_length_eq_zero hn), hcmd]
  | succ n =>
    have hslots : s.slots ≠ [] := List.ne_nil_of_length_eq_add_one hn
    have hstep := step_of_plain (s := s) (by rw [hd]; rfl)
    rw [hcmd, hin, List.tail_cons] at hstep
    rw [hn, Nat.add_sub_cancel] at hplain
    have hlen : (clockCycle ⟨true, F cw⟩ { s with inputs := rest }).stages = n + 1 := (shiftSlots_length _ _).trans hn
    obtain ⟨t, hrun, hst, hslot⟩ := run_moves_slot n (s := clockCycle ⟨true, F cw⟩ { s with inputs := rest }) (p := 0)
      (by omega) (shiftSlots_head _ hslots) hplain
    rw [Nat.zero_add] at hslot
    exact ⟨t, (run_succ n hstep).trans hrun, rspWord_of_port (portSlot_of_last _ hslot (hst.trans hlen).symm)⟩

/-! ### At a host -/

theorem registeredResponse_of_last {slots : List Slot} {k : Nat} {x : Slot} (hx : slots[k]? = some x)
    (hk : k + 1 = slots.length) : registeredResponse slots = delivered x := by
  rw [registeredResponse_eq x (List.ne_nil_of_length_eq_add_one hk.symm), portSlot_of_last x hx hk]

/-- The host reads nothing while `S[N]` is invalid. -/
theorem registeredResponse_of_invalid {slots : List Slot}
    (h : ∀ (q : Nat) (x : Slot), q + 1 = slots.length → slots[q]? = some x → x.v = false) : registeredResponse slots = [] := by
  cases hn : slots.length with
  | zero => rw [List.eq_nil_of_length_eq_zero hn, registeredResponse_nil]
  | succ n =>
    have hx : slots[n]? = some slots[n] := List.getElem?_eq_getElem (by omega)
    rw [registeredResponse_of_last hx hn.symm, delivered, h n _ hn.symm hx]
    rfl

/-- With nothing in the pipeline but a response in `S[p+1]`, the host reads it exactly if that is the last slot. -/
theorem registeredResponse_of_single {slots : List Slot} {p : Nat} {w : RspWord} (hw : slots[p]? = some ⟨true, w⟩)
    (hq : ∀ (q : Nat) (x : Slot), q ≠ p → slots[q]? = some x → x.v = false) :
    registeredResponse slots = if p + 1 = slots.length then [w] else [] := by
  split
  · next hp => rw [registeredResponse_of_last hw hp, delivered, if_pos rfl]
  · next hp => exact registeredResponse_of_invalid fun q x hlast hx => hq q x (by omega) hx

/-- A run that begins with a line goes through the issue of the command the host forms. -/
theorem runActions_issue {h h' : HostRun} {line : AsmLine} {as : List HostAction} (hi : h.Accounted)
    (hrun : runActions (.issue line :: as) h = .ok h') :
    ∃ cw g, runActions as g = .ok h' ∧ g.issued = h.issued ++ [cw] ∧ h.Moved g ⟨true, F cw⟩ := by
  obtain ⟨g, hg, hrest⟩ := bind_eq_ok_iff.1 hrun
  obtain ⟨hstops, hgoes⟩ := act_issue line hi
  cases hform : h.takeRegistered.form line.command with
  | error e =>
    rw [hstops e hform] at hg
    cases hg
  | ok cw =>
    obtain ⟨g', hg', hissued, -, hmoved⟩ := hgoes cw hform
    obtain rfl : g' = g := Except.ok.inj (hg'.symm.trans hg)
    exact ⟨cw, g', hrest, hissued, hmoved⟩

/-- In the pipelined form the response to a line, and nothing else, has reached `S[waits + 1]` after the waits. -/
theorem waits_after_issue {h g h' : HostRun} {cw : CmdWord} {waits : Nat} (hv : ∀ x ∈ h.core.slots, x.v = false)
    (hm : h.Moved g ⟨true, F cw⟩) (hlt : waits < h.core.slots.length)
    (hrun : runActions (List.replicate waits .wait) g = .ok h') :
    h'.issued = g.issued ∧ h'.takeRegistered.results =
      h.results ++ (if waits + 1 = h.core.slots.length then [F cw] else []) := by
  have hne : h.core.slots ≠ [] := List.ne_nil_of_length_pos (by omega)
  have hinvalid : ∀ (q : Nat) (x : Slot), h.core.slots[q]? = some x → x.v = false :=
    fun q x hx => hv x (List.mem_of_getElem? hx)
  obtain ⟨hfirst, hothers⟩ := issued_slots hm hne fun q x _ => hinvalid q x
  have hlen : g.core.slots.length = h.core.slots.length := by rw [hm.slots, shiftSlots_length]
  obtain ⟨k, hk, hacc, hissued, -, hres, hklen, hat, hrest⟩ := waits_spec waits hm.accounted (p := 0) (by omega) hfirst hothers
  obtain rfl : k = h' := Except.ok.inj (hk.symm.trans hrun)
  rw [Nat.zero_add] at hat hrest
  refine ⟨hissued, ?_⟩
  rw [takeRegistered_eq hacc, hres, hm.results, if_neg hne, registeredResponse_of_invalid fun q x _ => hinvalid q x,
    List.append_nil, registeredResponse_of_single hat hrest, hklen, hlen]

/-- Settles O49: with no slots the response comes with the issue; with `N` slots it stands in `S[waits + 1]`, which is the port
exactly in the `N`-th cycle. -/
theorem chainingWaitsForTheStages : Obligations.ChainingWaitsForTheStages := by
  intro h h' line waits hv hlen hwaits hrun
  have hacc : h.Accounted := by rw [HostRun.Accounted, inFlight_of_invalid hv, List.length_nil, Nat.add_zero, hlen]
  obtain ⟨cw, g, hrest, hissued, hmoved⟩ := runActions_issue hacc hrun
  refine ⟨cw, ?_⟩
  rw [State.stages] at hwaits ⊢
  by_cases hne : h.core.slots = []
  · obtain rfl : waits = 0 := by simpa [hne] using hwaits
    obtain rfl : g = h' := Except.ok.inj hrest
    refine ⟨hissued, ?_⟩
    rw [takeRegistered_eq hmoved.accounted, hmoved.slots, hmoved.results, hne]
    simp [delivered]
  · have hmax : max h.core.slots.length 1 = h.core.slots.length := max_eq_left (List.length_pos_iff.2 hne)
    rw [hmax] at hwaits ⊢
    obtain ⟨hsame, hres⟩ := waits_after_issue hv hmoved hwaits hrest
    exact ⟨hsame.trans hissued, hres⟩

end Sys2Proof.Machine
end

section
/-! The final state of a host program (30_encoding.md R86, 70_reset_and_hazards.md R169). -/

namespace Sys2Proof.Machine

/-- A variable is known by the name it is bound by. -/
theorem name_of_varOf {b : Text × Nat} {h : HostRun} {var : HostVar} (hv : h.varOf b = some var) : var.name = b.1 := by
  simp only [HostRun.varOf, Option.bind_eq_some_iff, Option.map_eq_some_iff] at hv
  obtain ⟨cw, -, rw, -, rfl⟩ := hv
  rfl

/-- The variables read from a list of bindings have the names of these bindings, none more often. -/
theorem names_of_varOf_sublist (h : HostRun) (bs : List (Text × Nat)) :
    ((bs.filterMap fun b => h.varOf b).map HostVar.name).Sublist (bs.map Prod.fst) := by
  induction bs with
  | nil => exact .slnil
  | cons b bs ih =>
    rw [List.filterMap_cons]
    split
    · exact ih.cons _
    · next var hb =>
      rw [List.map_cons, List.map_cons, name_of_varOf hb]
      exact ih.cons_cons _

/-- A binding of a host that has every response gives the status and the result of its command. -/
theorem varOf_eq_some_iff {h : HostRun} (hr : h.results = h.issued.map F) (b : Text × Nat) (var : HostVar) :
    h.varOf b = some var ↔ ∃ cw, h.issued[b.2]? = some cw ∧
      var.name = b.1 ∧ var.status = rspStatus (F cw) ∧ var.value = hostResult cw := by
  rw [HostRun.varOf, hr, Option.bind_eq_some_iff]
  refine exists_congr fun cw => and_congr_right fun hcw => ?_
  obtain ⟨name, status, value⟩ := var
  rw [List.getElem?_map, hcw, Option.map_some, Option.map_some, resultOf_F]
  simp [eq_comm]

/-- Settles O52: the host's variables are the latest bindings of their names, and each is read from the response to its command. -/
theorem hostProgramFinalState : Obligations.HostProgramFinalState := by
  intro lines core h hv hrun
  obtain ⟨⟨-, hnodup, hbound⟩, -, hr⟩ := runProgram_eq_ok hv hrun
  refine ⟨?_, hnodup.sublist (names_of_varOf_sublist h h.vars), fun var => ?_⟩
  · rw [HostRun.finalState, hr, List.map_map]
    rfl
  · simp only [HostRun.finalState, List.mem_filterMap, varOf_eq_some_iff hr]
    constructor
    · rintro ⟨⟨name, j⟩, hmem, cw, hcw, hname, hstatus, hvalue⟩
      exact ⟨j, cw, hname ▸ (hbound name j).1 hmem, hcw, hstatus, hvalue⟩
    · rintro ⟨j, cw, hlatest, hcw, hstatus, hvalue⟩
      exact ⟨(var.name, j), (hbound var.name j).2 hlatest, cw, hcw, rfl, hstatus, hvalue⟩

end Sys2Proof.Machine
end
